-- ==== Sys2Proof/Word.lean ====
section
/-!
DEFINITION. The bit-vector types of the kilobyte CORE (00_scope.md R8, R9): the 32-bit word of registers, `pc` and data
words, the byte of data memory, and the field types that a machine word is cut into (30_encoding.md R92).
-/

namespace Sys2Proof

/-- A 32-bit register value, address, ALU operand or machine word (R9; XLEN = PCLEN = ILEN = 32, R5). -/
abbrev Word := BitVec 32

/-- One byte of data memory (R44). -/
abbrev Byte := BitVec 8

/-- A 5-bit general-register index (R31, R92). -/
abbrev RegIndex := BitVec 5

/-- The `opcode` field, bits 31:26 (R92). -/
abbrev Opcode := BitVec 6

/-- The `funct` field, bits 5:0 (R92). -/
abbrev Funct := BitVec 6

end Sys2Proof
end

