-- ==== Sys2Proof/Config.lean ====
section
/-!
DEFINITION. The implementation parameters of 00_scope.md R5 as one structure, the constraints R5 puts on them, and the one
free value of the model. The parameter VALUES of this hardware are `Sys2Proof.config` in Sys2Proof/Decode.lean: they stand
there because a test of the real machine could show one of them wrong, and only that file and Machine/ can be mended later.
-/

namespace Sys2Proof

/-- `BYTE_ORDER` of a data word in data memory (R5, R62; D4). -/
inductive ByteOrder where
  | big
  | little
deriving DecidableEq, Repr

/-- `MISALIGNED_POLICY` (R5, R69; D5, U1): perform the access on bytes `ea .. ea+3`, or treat it as outside the specified
behaviour. -/
inductive MisalignedPolicy where
  | perform
  | refuse
deriving DecidableEq, Repr

/-- The parameters of R5. XLEN, NREGS, ILEN and PCLEN are fixed by the types (`Word`, `RegIndex`). -/
structure Config where
  /-- `IMEM_BYTES`. -/
  imemBytes : Nat
  /-- `DMEM_BYTES`. -/
  dmemBytes : Nat
  /-- `BYTE_ORDER`. -/
  byteOrder : ByteOrder
  /-- `MISALIGNED_POLICY`. -/
  misaligned : MisalignedPolicy
  /-- `REG_RESET`. -/
  regReset : Word
  /-- `JR_SHIFT`. -/
  jrShift : Nat
  /-- `HALT_WORD`. -/
  haltWord : Word
  /-- `OP_RTYPE`. -/
  opRtype : Opcode
  /-- `OP_J`. -/
  opJ : Opcode
  /-- `OP_BEQ`. -/
  opBeq : Opcode
  /-- `OP_ADDI`. -/
  opAddi : Opcode
  /-- `OP_ORI`. -/
  opOri : Opcode
  /-- `OP_LW`. -/
  opLw : Opcode
  /-- `OP_SW`. -/
  opSw : Opcode
  /-- `FN_SLL`. -/
  fnSll : Funct
  /-- `FN_SRL`. -/
  fnSrl : Funct
  /-- `FN_SRA`. -/
  fnSra : Funct
  /-- `FN_JR`. -/
  fnJr : Funct
  /-- `FN_ADD`. -/
  fnAdd : Funct
  /-- `FN_SUB`. -/
  fnSub : Funct
  /-- `FN_AND`. -/
  fnAnd : Funct
  /-- `FN_OR`. -/
  fnOr : Funct
  /-- `FN_NOR`. -/
  fnNor : Funct
  /-- `FN_SLT`. -/
  fnSlt : Funct
deriving DecidableEq, Repr

/-- `IMEM_SLOTS = IMEM_BYTES / 4` (R30). -/
def Config.imemSlots (c : Config) : Nat := c.imemBytes / 4

/-- The opcode values of the catalog (R100), EXIT's whole word apart. -/
def Config.opcodes (c : Config) : List Opcode :=
  [c.opRtype, c.opJ, c.opBeq, c.opAddi, c.opOri, c.opLw, c.opSw]

/-- The funct values of the catalog's R-format entries (R100). -/
def Config.functs (c : Config) : List Funct :=
  [c.fnSll, c.fnSrl, c.fnSra, c.fnJr, c.fnAdd, c.fnSub, c.fnAnd, c.fnOr, c.fnNor, c.fnSlt]

/-- The constraints of R5, with the two values its table derives from the source (`OP_RTYPE` = 0 and `FN_SLL` = 0). -/
abbrev Config.Valid (c : Config) : Prop :=
  0 < c.imemBytes ∧ c.imemBytes % 4 = 0 ∧ c.imemBytes ≤ 2 ^ 28 ∧
  1000 ≤ c.dmemBytes ∧ c.dmemBytes < 2 ^ 31 ∧
  c.haltWord ≠ 0 ∧ c.haltWord.extractLsb' 26 6 ∉ c.opcodes ∧
  c.opcodes.Nodup ∧ c.functs.Nodup ∧ c.opRtype = 0 ∧ c.fnSll = 0

/-- The wording of the description of a violated unused field, given the field's name and what was found there: a FREE
VALUE, any text (30_encoding.md R99; 93_implementation_defined.md U6; log 19). -/
opaque Config.describeViolation (field : List Char) (found : Nat) : List Char

end Sys2Proof
end

