-- ==== Sys2Proof/Syntax.lean ====
section
/-!
DEFINITION. The instruction set as data: the 18 entries of the catalog (30_encoding.md R100) and the decoded instruction,
one constructor per entry. A constructor holds EVERY field of its entry's format, the unused ones too (they make an
instruction partially valid and nothing else, R99), so that no bit of a word is lost (log 18).
-/

namespace Sys2Proof

/-- Structural layout of an instruction's bit fields (R91); `none` is the halt sentinel's. -/
inductive Format where
  | r
  | i
  | j
  | none
deriving DecidableEq, Repr

/-- The catalog's instruction type (R105). -/
inductive InstrType where
  | arithmetic
  | shift
  | branch
  | jump
  | loadStore
  | system
deriving DecidableEq, Repr

/-- The names of the fields below `opcode` (R92). -/
inductive FieldName where
  | rs
  | rt
  | rd
  | shamt
  | immediate
  | target
deriving DecidableEq, Repr

/-- The catalog's entries (R100), in the order of its table. -/
inductive Entry where
  | nop
  | sll
  | srl
  | sra
  | jr
  | add
  | sub
  | and
  | or
  | nor
  | slt
  | j
  | beq
  | addi
  | ori
  | lw
  | sw
  | exit
deriving DecidableEq, Repr

/-- A decoded instruction (R132): its catalog entry with the fields of its format, in the order of the format. -/
inductive Instr where
  | nop
  | exit
  | sll (rs rt rd : RegIndex) (shamt : BitVec 5)
  | srl (rs rt rd : RegIndex) (shamt : BitVec 5)
  | sra (rs rt rd : RegIndex) (shamt : BitVec 5)
  | jr (rs rt rd : RegIndex) (shamt : BitVec 5)
  | add (rs rt rd : RegIndex) (shamt : BitVec 5)
  | sub (rs rt rd : RegIndex) (shamt : BitVec 5)
  | and (rs rt rd : RegIndex) (shamt : BitVec 5)
  | or (rs rt rd : RegIndex) (shamt : BitVec 5)
  | nor (rs rt rd : RegIndex) (shamt : BitVec 5)
  | slt (rs rt rd : RegIndex) (shamt : BitVec 5)
  | j (target : BitVec 26)
  | beq (rs rt : RegIndex) (imm : BitVec 16)
  | addi (rs rt : RegIndex) (imm : BitVec 16)
  | ori (rs rt : RegIndex) (imm : BitVec 16)
  | lw (rs rt : RegIndex) (imm : BitVec 16)
  | sw (rs rt : RegIndex) (imm : BitVec 16)
deriving DecidableEq, Repr

/-- The catalog entry an instruction is an occurrence of. -/
def Instr.entry : Instr → Entry
  | .nop => .nop
  | .exit => .exit
  | .sll .. => .sll
  | .srl .. => .srl
  | .sra .. => .sra
  | .jr .. => .jr
  | .add .. => .add
  | .sub .. => .sub
  | .and .. => .and
  | .or .. => .or
  | .nor .. => .nor
  | .slt .. => .slt
  | .j .. => .j
  | .beq .. => .beq
  | .addi .. => .addi
  | .ori .. => .ori
  | .lw .. => .lw
  | .sw .. => .sw

end Sys2Proof
end

