-- ==== Sys2Proof/WellFormed.lean ====
section
/-!
DEFINITION. Which instructions a word can be decoded to. The field types already bound every field, so one check is left:
the all-zero SLL is no instruction, because its word is the no-op's (30_encoding.md R98).
-/

namespace Sys2Proof

/-- "Only the all-zero word is NOP: any other word with opcode = 0 and funct = 0 is SLL" (R98): an SLL whose four fields
are all zero does not occur. -/
def Instr.wf : Instr → Bool
  | .sll rs rt rd shamt => !(rs == 0 && rt == 0 && rd == 0 && shamt == 0)
  | .nop | .exit => true
  | .srl .. | .sra .. | .jr .. => true
  | .add .. | .sub .. | .and .. | .or .. | .nor .. | .slt .. => true
  | .j .. | .beq .. | .addi .. | .ori .. | .lw .. | .sw .. => true

end Sys2Proof
end

