-- ==== Sys2Proof/Decode.lean ====
section
/-!
DEFINITION. The instruction_decoder (30_encoding.md R90 to R106; 40_blocks_and_cycle.md R132): the parameter values of this
hardware, the bit-field codec, the catalog, `decode` (total, rejecting by name), the validity flag, and the encoder.
-/

namespace Sys2Proof

/-! ## The parameter values of this hardware -/

/-- The values of 00_scope.md R5's table. Which are the source's and which the spec's own decisions: log 1 to 7. -/
def config : Config where
  imemBytes := 1000
  dmemBytes := 1000
  byteOrder := .big
  misaligned := .perform
  regReset := 0x00000000
  jrShift := 2
  haltWord := 0xFFFFFFFF
  opRtype := 0x00
  opJ := 0x02
  opBeq := 0x04
  opAddi := 0x08
  opOri := 0x0D
  opLw := 0x23
  opSw := 0x2B
  fnSll := 0x00
  fnSrl := 0x02
  fnSra := 0x03
  fnJr := 0x08
  fnAdd := 0x20
  fnSub := 0x22
  fnAnd := 0x24
  fnOr := 0x25
  fnNor := 0x27
  fnSlt := 0x2A

/-! ## Errors outside a cycle -/

/-- The errors of decoding, assembling and the bit-field codec (30_encoding.md R93, R115; 60_exceptions.md R301). They are
returned to the caller and touch no state. -/
inductive CodecError where
  /-- "opcode/funct ... not present in the catalog": the word that was decoded (R103). -/
  | unknownInstruction (w : Word)
  /-- "... or mnemonic name not present in the catalog": the name (R115). -/
  | unknownMnemonic (name : List Char)
  /-- `MalformedMnemonic`, with the offending fragment (R115). -/
  | malformedMnemonic (fragment : List Char)
  /-- `ConfigurationInvariantViolation`: format field widths not summing to 32 (R93, R301). -/
  | configurationInvariantViolation (widths : List Nat)
deriving DecidableEq, Repr

/-! ## The bit-field codec -/

/-- `bits(hi, lo, word)`: the unsigned integer held in bits `lo .. hi`; defined for `0 <= lo < hi <= 31` only (R95). -/
def bits (hi lo : Nat) (w : Word) : Option Nat :=
  if lo < hi ∧ hi ≤ 31 then some (w.toNat / 2 ^ lo % 2 ^ (hi - lo + 1)) else none

/-- The fields of `w` below bit `top`, most significant first (R93). -/
def fieldsBelow (w : Nat) (top : Nat) : List Nat → List Nat
  | [] => []
  | n :: rest => w / 2 ^ (top - n) % 2 ^ n :: fieldsBelow w (top - n) rest

/-- `decompose(word, widths)` (R93): one field per width, read most-significant-field-first; fails if the widths do not
sum to 32. -/
def decompose (w : Word) (widths : List Nat) : Except CodecError (List Nat) :=
  if widths.sum = 32 then .ok (fieldsBelow w.toNat 32 widths)
  else .error (.configurationInvariantViolation widths)

/-- `acc ++ f1 ++ f2 ++ ...` as a number; none when a field does not fit its width or the lists differ in length (R94). -/
def composeFrom (acc : Nat) : List Nat → List Nat → Option Nat
  | [], [] => some acc
  | f :: fs, n :: ns => if f < 2 ^ n then composeFrom (acc * 2 ^ n + f) fs ns else none
  | _, _ => none

/-- `compose(fields, widths)` (R94): the word `f1 ++ ... ++ fk`; none outside its domain. -/
def compose (fields widths : List Nat) : Option Word :=
  if widths.sum = 32 then (composeFrom 0 fields widths).map (BitVec.ofNat 32) else none

/-- The field widths of a format, most significant first (R91). -/
def Format.widths : Format → List Nat
  | .r => [6, 5, 5, 5, 5, 6]
  | .i => [6, 5, 5, 16]
  | .j => [6, 26]
  | .none => []

/-! ## The fields by position (R92, R132) -/

/-- `instr[31:26]`. -/
def opcodeOf (w : Word) : Opcode := w.extractLsb' 26 6
/-- `instr[25:21]`. -/
def rsOf (w : Word) : RegIndex := w.extractLsb' 21 5
/-- `instr[20:16]`. -/
def rtOf (w : Word) : RegIndex := w.extractLsb' 16 5
/-- `instr[15:11]`. -/
def rdOf (w : Word) : RegIndex := w.extractLsb' 11 5
/-- `instr[10:6]`. -/
def shamtOf (w : Word) : BitVec 5 := w.extractLsb' 6 5
/-- `instr[5:0]`. -/
def functOf (w : Word) : Funct := w.extractLsb' 0 6
/-- `instr[15:0]`. -/
def immOf (w : Word) : BitVec 16 := w.extractLsb' 0 16
/-- `instr[25:0]`. -/
def targetOf (w : Word) : BitVec 26 := w.extractLsb' 0 26

/-! ## The catalog -/

/-- The `format` column of R100. -/
def Entry.format : Entry → Format
  | .nop | .sll | .srl | .sra | .jr | .add | .sub | .and | .or | .nor | .slt => .r
  | .beq | .addi | .ori | .lw | .sw => .i
  | .j => .j
  | .exit => .none

/-- The `type` column of R100 (R105; D21). -/
def Entry.type : Entry → InstrType
  | .nop | .exit => .system
  | .sll | .srl | .sra => .shift
  | .jr | .j => .jump
  | .add | .sub | .and | .or | .nor | .slt | .addi | .ori => .arithmetic
  | .beq => .branch
  | .lw | .sw => .loadStore

/-- The `unused fields` column of R100, NOP's and EXIT's whole words apart (R99). -/
def Entry.unusedFields : Entry → List FieldName
  | .add | .sub | .and | .or | .nor | .slt => [.shamt]
  | .sll | .srl | .sra => [.rs]
  | .jr => [.rt, .rd, .shamt]
  | .nop | .exit | .j | .beq | .addi | .ori | .lw | .sw => []

/-- The `match` column of R100's table, the numbers as printed there (the values of `config`; D1, D2). -/
def Entry.matchWord : Entry → Word
  | .nop => 0x00000000
  | .sll => 0x00000000
  | .srl => 0x00000002
  | .sra => 0x00000003
  | .jr => 0x00000008
  | .add => 0x00000020
  | .sub => 0x00000022
  | .and => 0x00000024
  | .or => 0x00000025
  | .nor => 0x00000027
  | .slt => 0x0000002A
  | .j => 0x08000000
  | .beq => 0x10000000
  | .addi => 0x20000000
  | .ori => 0x34000000
  | .lw => 0x8C000000
  | .sw => 0xAC000000
  | .exit => 0xFFFFFFFF

/-- The `mask` column of R100's table: the whole word for NOP and EXIT, opcode and funct for R, opcode for I and J. -/
def Entry.maskWord : Entry → Word
  | .nop | .exit => 0xFFFFFFFF
  | .sll | .srl | .sra | .jr | .add | .sub | .and | .or | .nor | .slt => 0xFC00003F
  | .j | .beq | .addi | .ori | .lw | .sw => 0xFC000000

/-- The canonical spelling of a field's name (R92). -/
def FieldName.text : FieldName → List Char
  | .rs => "rs".toList
  | .rt => "rt".toList
  | .rd => "rd".toList
  | .shamt => "shamt".toList
  | .immediate => "immediate".toList
  | .target => "target".toList

/-- The value of a field of the word, by position (R92). -/
def FieldName.valueIn (f : FieldName) (w : Word) : Nat :=
  match f with
  | .rs => (rsOf w).toNat
  | .rt => (rtOf w).toNat
  | .rd => (rdOf w).toNat
  | .shamt => (shamtOf w).toNat
  | .immediate => (immOf w).toNat
  | .target => (targetOf w).toNat

/-- The R-format entries, keyed by `(0, funct)` (R97, R100). -/
def lookupFunct (c : Config) (fn : Funct) : Option Entry :=
  if fn = c.fnSll then some .sll
  else if fn = c.fnSrl then some .srl
  else if fn = c.fnSra then some .sra
  else if fn = c.fnJr then some .jr
  else if fn = c.fnAdd then some .add
  else if fn = c.fnSub then some .sub
  else if fn = c.fnAnd then some .and
  else if fn = c.fnOr then some .or
  else if fn = c.fnNor then some .nor
  else if fn = c.fnSlt then some .slt
  else none

/-- The catalog's keyed lookup: by `(0, funct)` for the R-format opcode, by opcode alone otherwise (R97 step 3). -/
def lookup (c : Config) (op : Opcode) (fn : Funct) : Option Entry :=
  if op = c.opRtype then lookupFunct c fn
  else if op = c.opJ then some .j
  else if op = c.opBeq then some .beq
  else if op = c.opAddi then some .addi
  else if op = c.opOri then some .ori
  else if op = c.opLw then some .lw
  else if op = c.opSw then some .sw
  else none

/-- The entry a word selects, the two whole words tried first (R97 steps 1 to 4); none for an unknown word (R103). -/
def entryOf (c : Config) (w : Word) : Option Entry :=
  if w = 0 then some .nop
  else if w = c.haltWord then some .exit
  else lookup c (opcodeOf w) (functOf w)

/-- The instruction of entry `e` with the fields of `w` (R97 step 5). -/
def ofFields (e : Entry) (w : Word) : Instr :=
  match e with
  | .nop => .nop
  | .exit => .exit
  | .sll => .sll (rsOf w) (rtOf w) (rdOf w) (shamtOf w)
  | .srl => .srl (rsOf w) (rtOf w) (rdOf w) (shamtOf w)
  | .sra => .sra (rsOf w) (rtOf w) (rdOf w) (shamtOf w)
  | .jr => .jr (rsOf w) (rtOf w) (rdOf w) (shamtOf w)
  | .add => .add (rsOf w) (rtOf w) (rdOf w) (shamtOf w)
  | .sub => .sub (rsOf w) (rtOf w) (rdOf w) (shamtOf w)
  | .and => .and (rsOf w) (rtOf w) (rdOf w) (shamtOf w)
  | .or => .or (rsOf w) (rtOf w) (rdOf w) (shamtOf w)
  | .nor => .nor (rsOf w) (rtOf w) (rdOf w) (shamtOf w)
  | .slt => .slt (rsOf w) (rtOf w) (rdOf w) (shamtOf w)
  | .j => .j (targetOf w)
  | .beq => .beq (rsOf w) (rtOf w) (immOf w)
  | .addi => .addi (rsOf w) (rtOf w) (immOf w)
  | .ori => .ori (rsOf w) (rtOf w) (immOf w)
  | .lw => .lw (rsOf w) (rtOf w) (immOf w)
  | .sw => .sw (rsOf w) (rtOf w) (immOf w)

/-- `decode(word)` (R97): total on all words, an unknown word rejected by name (R103). -/
def decode (c : Config) (w : Word) : Except CodecError Instr :=
  match entryOf c w with
  | some e => .ok (ofFields e w)
  | none => .error (.unknownInstruction w)

/-! ## The validity flag (R99) -/

/-- The three values of the decoder's flag. -/
inductive Validity where
  | fullyValid
  | partiallyValid
  | unknown
deriving DecidableEq, Repr

/-- The unused fields of the instruction that are not zero, with what was found in them (R99). -/
def violationsOf (e : Entry) (w : Word) : List (FieldName × Nat) :=
  (e.unusedFields.map fun f => (f, f.valueIn w)).filter fun p => p.2 != 0

/-- The validity of a word's decoding (R99). -/
def validityOf (c : Config) (w : Word) : Validity :=
  match entryOf c w with
  | none => .unknown
  | some e => if (violationsOf e w).isEmpty then .fullyValid else .partiallyValid

/-- "a human-readable description of which field violated the constraint and what was found", one text per violated field;
the wording is a free value (R99, U6; log 19). -/
def violationTexts (e : Entry) (w : Word) : List (List Char) :=
  (violationsOf e w).map fun p => Config.describeViolation p.1.text p.2

/-- The same flag read from a decoded instruction: some unused field is not zero (R99). -/
def Instr.partiallyValid : Instr → Bool
  | .add _ _ _ shamt | .sub _ _ _ shamt | .and _ _ _ shamt | .or _ _ _ shamt | .nor _ _ _ shamt
  | .slt _ _ _ shamt => shamt != 0
  | .sll rs _ _ _ | .srl rs _ _ _ | .sra rs _ _ _ => rs != 0
  | .jr _ rt rd shamt => rt != 0 || rd != 0 || shamt != 0
  | .nop | .exit | .j .. | .beq .. | .addi .. | .ori .. | .lw .. | .sw .. => false

/-- The instruction with its unused fields cleared: its fully valid twin (R99, R112). -/
def Instr.clearUnused : Instr → Instr
  | .sll _ rt rd shamt => .sll 0 rt rd shamt
  | .srl _ rt rd shamt => .srl 0 rt rd shamt
  | .sra _ rt rd shamt => .sra 0 rt rd shamt
  | .jr rs _ _ _ => .jr rs 0 0 0
  | .add rs rt rd _ => .add rs rt rd 0
  | .sub rs rt rd _ => .sub rs rt rd 0
  | .and rs rt rd _ => .and rs rt rd 0
  | .or rs rt rd _ => .or rs rt rd 0
  | .nor rs rt rd _ => .nor rs rt rd 0
  | .slt rs rt rd _ => .slt rs rt rd 0
  | .nop => .nop
  | .exit => .exit
  | .j target => .j target
  | .beq rs rt imm => .beq rs rt imm
  | .addi rs rt imm => .addi rs rt imm
  | .ori rs rt imm => .ori rs rt imm
  | .lw rs rt imm => .lw rs rt imm
  | .sw rs rt imm => .sw rs rt imm

/-- Equality of instructions (R112): the same mnemonic name and the same argument values; unused fields are no arguments. -/
def Instr.sameAs (a b : Instr) : Bool := a.clearUnused == b.clearUnused

/-! ## The decoder's outputs (R132) -/

/-- The output ports of instruction_decoder. All fields are produced for every word, by position; `entry` is none for an
unknown word. -/
structure DecoderOut where
  entry : Option Entry
  format : Format
  type : Option InstrType
  opcode : Opcode
  rs : RegIndex
  rt : RegIndex
  rd : RegIndex
  shamt : BitVec 5
  funct : Funct
  imm16 : BitVec 16
  target : BitVec 26
  validity : Validity
deriving DecidableEq, Repr

/-- The instruction_decoder block: combinational, no state (R132). An unknown word has format `none` and no type. -/
def decoderOut (c : Config) (w : Word) : DecoderOut where
  entry := entryOf c w
  format := ((entryOf c w).map Entry.format).getD .none
  type := (entryOf c w).map Entry.type
  opcode := opcodeOf w
  rs := rsOf w
  rt := rtOf w
  rd := rdOf w
  shamt := shamtOf w
  funct := functOf w
  imm16 := immOf w
  target := targetOf w
  validity := validityOf c w

/-! ## The encoder -/

/-- An R-format word: opcode, rs, rt, rd, shamt, funct (R91, R92). -/
def rWord (c : Config) (rs rt rd : RegIndex) (shamt : BitVec 5) (fn : Funct) : Word :=
  c.opRtype ++ rs ++ rt ++ rd ++ shamt ++ fn

/-- An I-format word: opcode, rs, rt, immediate (R91, R92). -/
def iWord (op : Opcode) (rs rt : RegIndex) (imm : BitVec 16) : Word := op ++ rs ++ rt ++ imm

/-- A J-format word: opcode, target (R91, R92). -/
def jWord (op : Opcode) (target : BitVec 26) : Word := op ++ target

/-- The word of an instruction, from the catalog's table (R100) and the formats (R92). -/
def encode (c : Config) : Instr → Word
  | .nop => 0
  | .exit => c.haltWord
  | .sll rs rt rd shamt => rWord c rs rt rd shamt c.fnSll
  | .srl rs rt rd shamt => rWord c rs rt rd shamt c.fnSrl
  | .sra rs rt rd shamt => rWord c rs rt rd shamt c.fnSra
  | .jr rs rt rd shamt => rWord c rs rt rd shamt c.fnJr
  | .add rs rt rd shamt => rWord c rs rt rd shamt c.fnAdd
  | .sub rs rt rd shamt => rWord c rs rt rd shamt c.fnSub
  | .and rs rt rd shamt => rWord c rs rt rd shamt c.fnAnd
  | .or rs rt rd shamt => rWord c rs rt rd shamt c.fnOr
  | .nor rs rt rd shamt => rWord c rs rt rd shamt c.fnNor
  | .slt rs rt rd shamt => rWord c rs rt rd shamt c.fnSlt
  | .j target => jWord c.opJ target
  | .beq rs rt imm => iWord c.opBeq rs rt imm
  | .addi rs rt imm => iWord c.opAddi rs rt imm
  | .ori rs rt imm => iWord c.opOri rs rt imm
  | .lw rs rt imm => iWord c.opLw rs rt imm
  | .sw rs rt imm => iWord c.opSw rs rt imm

/-! ## The host's question -/

/-- The instruction the decoder reads from an instruction whose bits are `w`, bit 0 the least significant of the one word
an instruction has (R90); bits above `nbits` are zero. -/
def decodeTableWord (nbits w : Nat) : Option Instr :=
  match decode config (BitVec.ofNat 32 (w % 2 ^ nbits)) with
  | .ok i => some i
  | .error _ => none

end Sys2Proof
end

