-- ==== Sys2Proof/Machine/State.lean ====
section
/-!
DEFINITION. The state of the CORE as plain data (10_state.md R30), the reasons a cycle can stop (60_exceptions.md R301), and
the state after construction (R46, R330).
-/

namespace Sys2Proof.Machine

/-- The nine control signals of control_signal_rom (40_blocks_and_cycle.md R137), the vector `ctrl` of R45. -/
structure ControlSignals where
  regDst : Bool
  aluSrc : Bool
  memToReg : Bool
  regWrite : Bool
  memRead : Bool
  memWrite : Bool
  branch : Bool
  aluOp1 : Bool
  aluOp0 : Bool
deriving DecidableEq, Repr

/-- The two ways a cycle ends that commit a state (00_scope.md R12). -/
inductive CycleEnd where
  | executed
  | halted
deriving DecidableEq, Repr

/-- The output ports of the datapath that report the cycle just ended (R134): `executed` and `halted` as one value, none
before the first cycle, and `partially_valid`. THE MODEL'S OWN fields: the machine latches nothing (R30, R314) and no step
reads them (log 10). -/
structure Outputs where
  ended : Option CycleEnd
  partiallyValid : Bool
deriving DecidableEq, Repr

/-- Data memory: (address, byte) pairs, addresses strictly rising, no byte equal to what an unlisted address reads as
(R44; log 16). -/
abbrev Memory := List Host.Cell

/-- Instruction memory: (slot, word) pairs in the same form (R43, R66: whole words, no byte order; log 16). -/
abbrev InstrMemory := List (Nat × Word)

/-- The complete state (R30), with the model's own `out`. -/
structure State where
  /-- `x[0..31]` (R31); `x[0]` is hardwired in the two operations that read and write registers (R33). -/
  regs : Vector Word 32
  /-- The program counter, a byte address in instruction memory (R36). -/
  pc : Word
  /-- `IMEM` (R43). -/
  imem : InstrMemory
  /-- `DMEM` (R44). -/
  dmem : Memory
  /-- The last-computed control signals (R45). -/
  ctrl : ControlSignals
  /-- The outcome ports of the cycle just ended (R134; the model's own, log 10). -/
  out : Outputs
deriving DecidableEq, Repr

/-- The execution-time faults of a cycle (R301). Each ends the cycle and commits nothing (R304). All are the spec's own
outcomes, so stopping is what the machine does (safe: the model never stops where the spec gives an effect). -/
inductive Fault where
  /-- `OutOfBounds(fetch, pc0)`, raised by the fetch (R66). -/
  | outOfBoundsFetch (pc : Word)
  /-- `UnknownInstruction(w)`, raised by the decode of the fetched word (R103). -/
  | unknownInstruction (w : Word)
  /-- `UnsupportedOpcode(opcode, funct)`, raised for SLL by its meaning (R203) and by the generic cycle's ROM and ALU dispatch
  (R140, R141). -/
  | unsupportedOpcode (opcode : Opcode) (funct : Funct)
  /-- `OutOfBounds(data, ea)`, raised by LW and SW (R65). -/
  | outOfBoundsData (ea : Word)
deriving DecidableEq, Repr

/-- Where the model gives no meaning. -/
inductive Refusal where
  /-- An instruction that has no meaning in the model yet, raised by `exec` only. Safe. No arm of `exec` answers it. -/
  | notModelled (mnemonic : String)
  /-- A misaligned data access under `MISALIGNED_POLICY = refuse`, raised by `checkAccess` (R69, U1). Safe. It cannot occur
  under this hardware's `config`, whose policy is `perform`. -/
  | misalignedData (ea : Word)
deriving DecidableEq, Repr

/-- What a cycle of this machine answers. -/
abbrev Result := Host.Outcome State Fault Refusal

/-- The state after construction (R46, R330): every register `REG_RESET` (x[0] hardwired 0), `pc` 0, both memories as an
unlisted address reads (data zero-filled, every instruction slot the no-op), `ctrl` all 0; no cycle has ended yet. -/
def State.reset : State where
  regs := (Vector.replicate 32 config.regReset).set 0 0
  pc := 0
  imem := []
  dmem := []
  ctrl := ⟨false, false, false, false, false, false, false, false, false⟩
  out := ⟨none, false⟩

end Sys2Proof.Machine
end

