-- ==== Sys2Proof/Machine/ControlRom.lean ====
section
/-!
DEFINITION. control_signal_rom (40_blocks_and_cycle.md R133, R137 to R140): the rows of the control table and the lookup.
The order of the nine signals is R137's: RegDst, ALUSrc, MemToReg, RegWrite, MemRead, MemWrite, Branch, ALUOp1, ALUOp0.
-/

namespace Sys2Proof.Machine

/-- Row "R (opcode 0)" (R137). -/
def rowR : ControlSignals := ⟨true, false, false, true, false, false, false, true, false⟩

/-- Row "LW" (R137). -/
def rowLw : ControlSignals := ⟨false, true, true, true, true, false, false, false, false⟩

/-- Row "SW" (R137), its two don't-cares driven to 0 (R138; log 22). -/
def rowSw : ControlSignals := ⟨false, true, false, false, false, true, false, false, false⟩

/-- Row "BEQ" (R137), its two don't-cares driven to 0 (R138; log 22). -/
def rowBeq : ControlSignals := ⟨false, false, false, false, false, false, true, false, true⟩

/-- Row "ADDI/ORI (immediate arithmetic)" (R137). -/
def rowImm : ControlSignals := ⟨false, true, false, true, false, false, false, false, false⟩

/-- The row of J and of EXIT: all nine signals 0 (R139; log 12). -/
def rowZero : ControlSignals := ⟨false, false, false, false, false, false, false, false, false⟩

/-- The ROM (R133): the signals of an opcode, `is_exit` selecting the all-zero row; none is `unsupported` (R140). -/
def controlRom (c : Config) (op : Opcode) (isExit : Bool) : Option ControlSignals :=
  if isExit then some rowZero
  else if op = c.opRtype then some rowR
  else if op = c.opLw then some rowLw
  else if op = c.opSw then some rowSw
  else if op = c.opBeq then some rowBeq
  else if op = c.opAddi ∨ op = c.opOri then some rowImm
  else if op = c.opJ then some rowZero
  else none

end Sys2Proof.Machine
end

