-- ==== Sys2Proof/Machine/Ops.lean ====
section
/-!
DEFINITION. The shared operations: sparse memory in canonical form, the register file's read and write (10_state.md R31 to
R35), the data-memory primitives (20_memory.md R62 to R65, R69), the fetch (R66), and the end of a cycle (40 R146). There is
no exception entry and no exception return: the hardware has no trap mechanism (60_exceptions.md R300, R305, R306).
-/

namespace Sys2Proof.Machine

/-! ## Sparse memory, one canonical form for bytes and for instruction words -/

/-- What an unlisted address reads as: 0. For a data byte this is the source's zero fill (R44), for an instruction slot the
word of the no-op that unused slots hold (R43). -/
def unlisted {n : Nat} : BitVec n := 0

/-- The value at key `a`. -/
def sparseGet {n : Nat} : List (Nat × BitVec n) → Nat → BitVec n
  | [], _ => unlisted
  | (k, v) :: rest, a => if k = a then v else sparseGet rest a

/-- Write `v` at key `a`, keeping the canonical form: writing what an unlisted key reads as removes the entry. -/
def sparseSet {n : Nat} : List (Nat × BitVec n) → Nat → BitVec n → List (Nat × BitVec n)
  | [], a, v => if v = unlisted then [] else [(a, v)]
  | (k, w) :: rest, a, v =>
    if a < k then (if v = unlisted then (k, w) :: rest else (a, v) :: (k, w) :: rest)
    else if a = k then (if v = unlisted then rest else (a, v) :: rest)
    else (k, w) :: sparseSet rest a v

/-- The canonical form: keys strictly rising, no value equal to what an unlisted key reads as. -/
def sparseWf {n : Nat} : List (Nat × BitVec n) → Bool
  | [] => true
  | (k, v) :: rest => v != unlisted && rest.all (fun p => decide (k < p.1)) && sparseWf rest

/-- Every listed key lies below `bound`: nothing is listed where the spec backs nothing (R61). -/
def keysBelow {n : Nat} (bound : Nat) (m : List (Nat × BitVec n)) : Bool := m.all fun p => decide (p.1 < bound)

/-- The canonical form of data memory. -/
def Memory.wf (m : Memory) : Bool := sparseWf m

/-- The canonical form of instruction memory. -/
def InstrMemory.wf (m : InstrMemory) : Bool := sparseWf m

/-! ## Registers -/

/-- The register file's read (R11, R135): register 0 reads as 0 whatever is held (R33). -/
def readRegs (x : Vector Word 32) (r : RegIndex) : Word :=
  if r = 0 then 0 else x.get ⟨r.toNat, r.isLt⟩

/-- The register file's write (R11, R135): a write to register 0 is discarded without error (R33). -/
def writeRegs (x : Vector Word 32) (r : RegIndex) (v : Word) : Vector Word 32 :=
  if r = 0 then x else x.set r.toNat v r.isLt

/-- `x[r]` (R11). -/
def State.reg (s : State) (r : RegIndex) : Word := readRegs s.regs r

/-- `x[r] <- v` (R11). -/
def State.setReg (s : State) (r : RegIndex) (v : Word) : State := { s with regs := writeRegs s.regs r v }

/-! ## Data memory -/

/-- One byte of data memory. -/
def State.byte (s : State) (a : Nat) : Byte := sparseGet s.dmem a

/-- The four bytes of a word in the order of their addresses (R62). -/
def wordBytes (o : ByteOrder) (v : Word) : Byte × Byte × Byte × Byte :=
  match o with
  | .big => (v.extractLsb' 24 8, v.extractLsb' 16 8, v.extractLsb' 8 8, v.extractLsb' 0 8)
  | .little => (v.extractLsb' 0 8, v.extractLsb' 8 8, v.extractLsb' 16 8, v.extractLsb' 24 8)

/-- The word made of four bytes in the order of their addresses (R62, R63). -/
def bytesWord (o : ByteOrder) (b0 b1 b2 b3 : Byte) : Word :=
  match o with
  | .big => b0 ++ b1 ++ b2 ++ b3
  | .little => b3 ++ b2 ++ b1 ++ b0

/-- The word at byte address `a` (R63). -/
def readWord (o : ByteOrder) (m : Memory) (a : Nat) : Word :=
  bytesWord o (sparseGet m a) (sparseGet m (a + 1)) (sparseGet m (a + 2)) (sparseGet m (a + 3))

/-- Store a word at byte address `a` (R64). -/
def writeWord (o : ByteOrder) (m : Memory) (a : Nat) (v : Word) : Memory :=
  let b := wordBytes o v
  sparseSet (sparseSet (sparseSet (sparseSet m a b.1) (a + 1) b.2.1) (a + 2) b.2.2.1) (a + 3) b.2.2.2

/-- Why a cycle ends without a next state. -/
inductive Stop where
  | fault (r : Fault)
  | refused (r : Refusal)
deriving DecidableEq, Repr

/-- A stop as the answer of a cycle. -/
def Stop.result : Stop → Result
  | .fault r => .fault r
  | .refused r => .refused r

/-- The bounds check of R65: `unsigned(a) <= DMEM_BYTES - 4`, computed without wrap-around (D16). -/
abbrev dataInBounds (c : Config) (a : Word) : Prop := a.toNat + 4 ≤ c.dmemBytes

/-- What is checked of a word access at `a`: alignment only under `MISALIGNED_POLICY = refuse` (R69, U1), then bounds (R65). -/
def checkAccess (c : Config) (a : Word) : Except Stop Unit :=
  if c.misaligned = .refuse ∧ a.toNat % 4 ≠ 0 then .error (.refused (.misalignedData a))
  else if dataInBounds c a then .ok ()
  else .error (.fault (.outOfBoundsData a))

/-- `MemRead(a, 4)` (R63). -/
def memRead (c : Config) (a : Word) (s : State) : Except Stop Word :=
  match checkAccess c a with
  | .ok () => .ok (readWord c.byteOrder s.dmem a.toNat)
  | .error e => .error e

/-- `MemWrite(a, 4, v)` (R64): the data memory after it, nothing written when the check fails. -/
def memWrite (c : Config) (a v : Word) (s : State) : Except Stop Memory :=
  match checkAccess c a with
  | .ok () => .ok (writeWord c.byteOrder s.dmem a.toNat v)
  | .error e => .error e

/-! ## Instruction fetch -/

/-- One slot of instruction memory. -/
def State.slot (s : State) (k : Nat) : Word := sparseGet s.imem k

/-- `Fetch(a)` (R66): the whole word of slot `floor(a / 4)`, any alignment (D25), or `OutOfBounds(fetch, a)`. -/
def fetch (c : Config) (a : Word) (s : State) : Except Stop Word :=
  if a.toNat < c.imemBytes then .ok (s.slot (a.toNat / 4)) else .error (.fault (.outOfBoundsFetch a))

/-- The instruction at the current `pc` (R97, R103, R145): fetch, then decode; an unknown word faults. -/
def fetchDecode (c : Config) (s : State) : Except Stop Instr :=
  match fetch c s.pc s with
  | .error e => .error e
  | .ok w =>
    match decode c w with
    | .ok i => .ok i
    | .error _ => .error (.fault (.unknownInstruction w))

/-- `s` with `w` in the slot the next fetch reads; a `pc` outside instruction memory is first set to 0, where a loaded
program starts (R36). -/
def State.placeWord (c : Config) (s : State) (w : Word) : State :=
  if s.pc.toNat < c.imemBytes then { s with imem := sparseSet s.imem (s.pc.toNat / 4) w }
  else { s with pc := 0, imem := sparseSet s.imem 0 w }

/-! ## The end of a cycle (R146) -/

/-- Commit `pc`, the control signals of the cycle (R45) and its outcome ports (R134). -/
def State.commit (s : State) (row : ControlSignals) (e : CycleEnd) (pv : Bool) (next : Word) : State :=
  { s with pc := next, ctrl := row, out := ⟨some e, pv⟩ }

/-- A cycle with outcome `Executed` that writes register `rd` and advances `pc` by 4 (R37, R145). -/
def writeBack (row : ControlSignals) (pv : Bool) (rd : RegIndex) (v : Word) (s : State) : Result :=
  .next ((s.setReg rd v).commit row .executed pv (s.pc + 4))

/-- A cycle with outcome `Executed` that writes nothing but `pc` (R37, R145). -/
def transferTo (row : ControlSignals) (pv : Bool) (next : Word) (s : State) : Result :=
  .next (s.commit row .executed pv next)

end Sys2Proof.Machine
end

