-- ==== Sys2Proof/Machine/Operands.lean ====
section
/-!
DEFINITION. The operand forms and the ALU: sign and zero extension (00_scope.md R10, 30_encoding.md R96), the eight ALU
operations (40_blocks_and_cycle.md R142), the effective address (44_load_store.md R240) and the three branch and jump
targets (45_control_transfer.md R264).
-/

namespace Sys2Proof.Machine

/-- `sext_32` of a 16-bit immediate (R10, R96). -/
def sext32 (imm : BitVec 16) : Word := imm.signExtend 32

/-- `zext_32` of a shift amount or a jump target (R10, R96). -/
def zext32 {n : Nat} (v : BitVec n) : Word := v.setWidth 32

/-- The eight operations of the ALU (R141). -/
inductive AluOp where
  | and
  | or
  | add
  | subtract
  | setLessThan
  | nor
  | shiftRightLogical
  | shiftRightArithmetic
deriving DecidableEq, Repr

/-- The ALU (R142): total, wrapping modulo 2^32, no flag, no exception (R187; D14); the shifts use `B[4:0]`. -/
def alu (op : AluOp) (a b : Word) : Word :=
  match op with
  | .and => a &&& b
  | .or => a ||| b
  | .add => a + b
  | .subtract => a - b
  | .setLessThan => if a.toInt < b.toInt then 1 else 0
  | .nor => ~~~(a ||| b)
  | .shiftRightLogical => a >>> (b.extractLsb' 0 5).toNat
  | .shiftRightArithmetic => a.sshiftRight (b.extractLsb' 0 5).toNat

/-- The ALU operation of a funct under ALUOp (1, 0) (R141); none for a funct without an operation, SLL's among them. -/
def functOperation (c : Config) (fn : Funct) : Option AluOp :=
  if fn = c.fnAdd then some .add
  else if fn = c.fnSub then some .subtract
  else if fn = c.fnAnd then some .and
  else if fn = c.fnOr then some .or
  else if fn = c.fnNor then some .nor
  else if fn = c.fnSlt then some .setLessThan
  else if fn = c.fnSrl then some .shiftRightLogical
  else if fn = c.fnSra then some .shiftRightArithmetic
  else none

/-- `AluDispatch(ALUOp1, ALUOp0, funct)` (R141; ALUOp (1, 1) has no operation, D33). -/
def aluDispatch (c : Config) (op1 op0 : Bool) (fn : Funct) : Option AluOp :=
  match op1, op0 with
  | false, false => some .add
  | false, true => some .subtract
  | true, false => functOperation c fn
  | true, true => none

/-- `ea = (x[rs] + sext_32(imm16)) mod 2^32`, the one addressing mode (R240). -/
def effectiveAddress (rs : RegIndex) (imm : BitVec 16) (s : State) : Word := alu .add (s.reg rs) (sext32 imm)

/-- The target of a taken BEQ: relative to the branch's own address (R261, C10). -/
def branchTarget (pc0 : Word) (imm : BitVec 16) : Word := pc0 + (sext32 imm <<< 2)

/-- The target of J: the field shifted left 2, or'd with the top nibble of `pc0 + 4` (R262). -/
def jumpTarget (pc0 : Word) (target : BitVec 26) : Word :=
  (zext32 target <<< 2) ||| ((pc0 + 4) &&& 0xF0000000)

/-- The target of JR: the register's value shifted left by `JR_SHIFT` (R263, C1). -/
def jrTarget (c : Config) (v : Word) : Word := v <<< c.jrShift

end Sys2Proof.Machine
end

