-- ==== Sys2Proof/Machine/Flags.lean ====
section
/-!
DEFINITION. The one condition the hardware evaluates. There are no status flags: "result == 0" of the ALU's SUBTRACT inside
a BEQ cycle is consumed in the same cycle and stored nowhere (10_state.md R40).
-/

namespace Sys2Proof.Machine

/-- The zero test of an ALU result (R40, R145). -/
def isZero (res : Word) : Bool := res == 0

/-- BEQ's condition: the SUBTRACT of its two registers is zero (R261). -/
def branchTaken (rs rt : RegIndex) (s : State) : Bool := isZero (alu .subtract (s.reg rs) (s.reg rt))

end Sys2Proof.Machine
end

