-- ==== Sys2Proof/Machine/ControlTransfer.lean ====
section
/-!
DEFINITION. Control transfer: BEQ, J, JR (45_control_transfer.md R260 to R264). A transfer takes effect at once, with no
delay slot, and a target is not checked when it is written (R260).
-/

namespace Sys2Proof.Machine

/-- BEQ (R261): `pc <- pc0 + (sext_32(imm16) << 2)` when `x[rs] - x[rt]` is zero, else `pc <- pc0 + 4` (C10). -/
def execBeq (rs rt : RegIndex) (imm : BitVec 16) (s : State) : Result :=
  transferTo rowBeq false (if branchTaken rs rt s then branchTarget s.pc imm else s.pc + 4) s

/-- J (R262): `pc <- (zext_32(target) << 2) | ((pc0 + 4) & 0xF0000000)`. -/
def execJ (target : BitVec 26) (s : State) : Result := transferTo rowZero false (jumpTarget s.pc target) s

/-- JR (R263): `pc <- x[rs] << JR_SHIFT`; non-zero `rt`, `rd`, `shamt` only set the partially-valid flag (C1, D13; log 6). -/
def execJr (rs rt rd : RegIndex) (shamt : BitVec 5) (s : State) : Result :=
  transferTo rowR (rt != 0 || rd != 0 || shamt != 0) (jrTarget config (s.reg rs)) s

end Sys2Proof.Machine
end

