-- ==== Sys2Proof/Machine/Immediate.lean ====
section
/-!
DEFINITION. Immediate arithmetic: ADDI and ORI (43_immediate_arithmetic.md R220 to R222).
-/

namespace Sys2Proof.Machine

/-- The common pseudocode of R220: `x[rt] <- (x[rs] + sext_32(imm16)) mod 2^32 ; pc <- pc0 + 4`, under the shared ROM row. -/
def aluImmediate (rs rt : RegIndex) (imm : BitVec 16) (s : State) : Result :=
  writeBack rowImm false rt (alu .add (s.reg rs) (sext32 imm)) s

/-- ADDI (R221). Overflow wraps (D14). -/
def execAddi (rs rt : RegIndex) (imm : BitVec 16) (s : State) : Result := aluImmediate rs rt imm s

/-- ORI (R222): an ADDITION of the sign-extended immediate, identical to ADDI; not a bitwise OR (90_conflicts.md C6). -/
def execOri (rs rt : RegIndex) (imm : BitVec 16) (s : State) : Result := aluImmediate rs rt imm s

end Sys2Proof.Machine
end

