-- ==== Sys2Proof/Machine/LoadStore.lean ====
section
/-!
DEFINITION. Load and store: LW and SW (44_load_store.md R240 to R242).
-/

namespace Sys2Proof.Machine

/-- LW (R241): `x[rt] <- MemRead(ea, 4) ; pc <- pc0 + 4`. The read and its bounds check happen for `rt = 0` too (D32; log 25). -/
def execLw (rs rt : RegIndex) (imm : BitVec 16) (s : State) : Result :=
  match memRead config (effectiveAddress rs imm s) s with
  | .ok v => writeBack rowLw false rt v s
  | .error e => e.result

/-- SW (R242): `MemWrite(ea, 4, x[rt]) ; pc <- pc0 + 4`. -/
def execSw (rs rt : RegIndex) (imm : BitVec 16) (s : State) : Result :=
  match memWrite config (effectiveAddress rs imm s) (s.reg rt) s with
  | .ok m => transferTo rowSw false (s.pc + 4) { s with dmem := m }
  | .error e => e.result

end Sys2Proof.Machine
end

