-- ==== Sys2Proof/Machine/RArith.lean ====
section
/-!
DEFINITION. R-format arithmetic and logic: ADD, SUB, AND, OR, NOR, SLT (41_r_arithmetic.md R180 to R187).
-/

namespace Sys2Proof.Machine

/-- The common pseudocode of R180: `x[rd] <- Alu(op, x[rs], x[rt]) ; pc <- pc0 + 4`, under the ROM row "R". A non-zero `shamt`
is ignored and only sets the partially-valid flag (R99). -/
def aluRegister (op : AluOp) (rs rt rd : RegIndex) (shamt : BitVec 5) (s : State) : Result :=
  writeBack rowR (shamt != 0) rd (alu op (s.reg rs) (s.reg rt)) s

/-- ADD (R181): `x[rd] <- (x[rs] + x[rt]) mod 2^32 ; pc <- pc0 + 4`; overflow wraps (D14). -/
def execAdd (rs rt rd : RegIndex) (shamt : BitVec 5) (s : State) : Result := aluRegister .add rs rt rd shamt s

/-- SUB (R182): `x[rd] <- (x[rs] - x[rt]) mod 2^32 ; pc <- pc0 + 4`; overflow wraps (D14). -/
def execSub (rs rt rd : RegIndex) (shamt : BitVec 5) (s : State) : Result := aluRegister .subtract rs rt rd shamt s

/-- AND (R183): `x[rd] <- x[rs] & x[rt] ; pc <- pc0 + 4`. -/
def execAnd (rs rt rd : RegIndex) (shamt : BitVec 5) (s : State) : Result := aluRegister .and rs rt rd shamt s

/-- OR (R184): `x[rd] <- x[rs] | x[rt] ; pc <- pc0 + 4`. -/
def execOr (rs rt rd : RegIndex) (shamt : BitVec 5) (s : State) : Result := aluRegister .or rs rt rd shamt s

/-- NOR (R185): `x[rd] <- ~(x[rs] | x[rt]) ; pc <- pc0 + 4`. -/
def execNor (rs rt rd : RegIndex) (shamt : BitVec 5) (s : State) : Result := aluRegister .nor rs rt rd shamt s

/-- SLT (R186): `x[rd] <- (if signed(x[rs]) < signed(x[rt]) then 1 else 0) ; pc <- pc0 + 4`. -/
def execSlt (rs rt rd : RegIndex) (shamt : BitVec 5) (s : State) : Result := aluRegister .setLessThan rs rt rd shamt s

end Sys2Proof.Machine
end

