-- ==== Sys2Proof/Machine/Shifts.lean ====
section
/-!
DEFINITION. The shifts: SRL, SRA, and SLL, which decodes and faults (42_shifts.md R200 to R203).
-/

namespace Sys2Proof.Machine

/-- The common form of R200: `A = x[rt]`, `B = zext_32(shamt)`, the result to `rd`, `pc <- pc0 + 4`, under the ROM row "R". A
non-zero `rs` is ignored and only sets the partially-valid flag (R99). -/
def aluShift (op : AluOp) (rs rt rd : RegIndex) (shamt : BitVec 5) (s : State) : Result :=
  writeBack rowR (rs != 0) rd (alu op (s.reg rt) (zext32 shamt)) s

/-- SRL (R201): `x[rd] <- x[rt] >>u shamt ; pc <- pc0 + 4`. -/
def execSrl (rs rt rd : RegIndex) (shamt : BitVec 5) (s : State) : Result :=
  aluShift .shiftRightLogical rs rt rd shamt s

/-- SRA (R202): `x[rd] <- x[rt] >>s shamt ; pc <- pc0 + 4`. -/
def execSra (rs rt rd : RegIndex) (shamt : BitVec 5) (s : State) : Result :=
  aluShift .shiftRightArithmetic rs rt rd shamt s

/-- SLL (R203): `raise UnsupportedOpcode(opcode = 0, funct = 0)`; nothing is written and `pc` stays (C9, D30; log 15). -/
def execSll (_rs _rt _rd : RegIndex) (_shamt : BitVec 5) (_s : State) : Result :=
  .fault (.unsupportedOpcode config.opRtype config.fnSll)

end Sys2Proof.Machine
end

