-- ==== Sys2Proof/Machine/System.lean ====
section
/-!
DEFINITION. System instructions: NOP and EXIT (46_system.md R280 to R282).
-/

namespace Sys2Proof.Machine

/-- NOP (R281): `pc <- pc0 + 4`, nothing else; it takes the ROM row "R" and skips the ALU (D20; log 21). -/
def execNop (s : State) : Result := transferTo rowR false (s.pc + 4) s

/-- EXIT (R282): `pc <- pc0 + 4 ; halt`. The outcome `Halted` is a next state whose port `ended` says so; nothing is latched, so
a further step goes on at the new `pc` (R314, D18; log 10). -/
def execExit (s : State) : Result := .next (s.commit rowZero .halted false (s.pc + 4))

end Sys2Proof.Machine
end

