-- ==== Sys2Proof/Machine/Step.lean ====
section
/-!
DEFINITION. One cycle of the CORE (40_blocks_and_cycle.md R144, R145): fetch at `pc`, decode, execute. It only calls the
fetch and the decode of Machine/Ops.lean and the dispatch.
-/

namespace Sys2Proof.Machine

/-- One `step()` (R333) as one atomic transition (R144): a next state for `Executed` and `Halted`, a fault that commits nothing
otherwise (R146, R304). -/
def step (s : State) : Host.Outcome State Fault Refusal :=
  match fetchDecode config s with
  | .ok i => exec i s
  | .error e => e.result

/-- `s` with the instruction word `w` (its bits at and above `nbits` zero) where the next `step` fetches. It stands for the
host's load of a program (R331); a `pc` outside instruction memory is set to the load's entry point 0 (log 17). -/
def State.withFetchWord (s : State) (nbits w : Nat) : State :=
  s.placeWord config (BitVec.ofNat 32 (w % 2 ^ nbits))

end Sys2Proof.Machine
end

