-- ==== Sys2Proof/Machine/Datapath.lean ====
section
/-!
DEFINITION. The per-cycle algorithm of 40_blocks_and_cycle.md R145, written out for any parameters: fetch, halt short-circuit,
control decode, format dispatch, one commit at the end (R146). The per-instruction meanings of files 41 to 46 are this
algorithm evaluated entry by entry (R149); that the two agree is a statement of this package, not an assumption.
-/

namespace Sys2Proof.Machine

/-- The outcome of one cycle (00_scope.md R12). A stop commits nothing (R146). -/
inductive CycleResult where
  | executed (s : State)
  | halted (s : State)
  | stopped (e : Stop)
deriving DecidableEq, Repr

/-- The same outcome as the host's interface takes it. -/
def CycleResult.result : CycleResult → Result
  | .executed s => .next s
  | .halted s => .next s
  | .stopped e => e.result

/-- The J arm of R145: "no register/ALU activity". -/
def cycleJ (d : DecoderOut) (sig : ControlSignals) (pv : Bool) (s : State) : CycleResult :=
  .executed (s.commit sig .executed pv ((zext32 d.target <<< 2) ||| ((s.pc + 4) &&& 0xF0000000)))

/-- The operands of an R-format ALU operation (R143): the shifts take `x[rt]` and the `shamt` field. -/
def cycleOperandsR (d : DecoderOut) (s : State) : Word × Word :=
  if d.type = some .shift then (s.reg d.rt, zext32 d.shamt) else (s.reg d.rs, s.reg d.rt)

/-- The R arm of R145: NOP, JR ("bypasses the ALU"), then the ALU operation of the funct. -/
def cycleR (c : Config) (d : DecoderOut) (sig : ControlSignals) (pv : Bool) (s : State) : CycleResult :=
  if d.entry = some .nop then .executed (s.commit sig .executed pv (s.pc + 4))
  else if sig.aluOp1 = true ∧ sig.aluOp0 = false ∧ d.funct = c.fnJr then
    .executed (s.commit sig .executed pv (s.reg d.rs <<< c.jrShift))
  else
    match aluDispatch c sig.aluOp1 sig.aluOp0 d.funct with
    | none => .stopped (.fault (.unsupportedOpcode d.opcode d.funct))
    | some op =>
      let res := alu op (cycleOperandsR d s).1 (cycleOperandsR d s).2
      let written := if sig.regDst then s.setReg d.rd res else s
      .executed (written.commit sig .executed pv (s.pc + 4))

/-- The I arm of R145: the branch, then exactly one of load, store and immediate arithmetic. -/
def cycleI (c : Config) (d : DecoderOut) (sig : ControlSignals) (pv : Bool) (s : State) : CycleResult :=
  let imm := sext32 d.imm16
  match aluDispatch c sig.aluOp1 sig.aluOp0 d.funct with
  | none => .stopped (.fault (.unsupportedOpcode d.opcode d.funct))
  | some op =>
    let res := alu op (s.reg d.rs) (if sig.aluSrc then imm else s.reg d.rt)
    let next := if sig.branch = true ∧ isZero res = true then s.pc + (imm <<< 2) else s.pc + 4
    if sig.memToReg then
      match memRead c res s with
      | .ok v => .executed ((s.setReg d.rt v).commit sig .executed pv next)
      | .error e => .stopped e
    else if sig.memWrite = true ∧ sig.aluSrc = true then
      match memWrite c res (s.reg d.rt) s with
      | .ok m => .executed ({ s with dmem := m }.commit sig .executed pv next)
      | .error e => .stopped e
    else if sig.aluSrc then .executed ((s.setReg d.rt res).commit sig .executed pv next)
    else .executed (s.commit sig .executed pv next)

/-- Steps 2 to 4 of R145 on the fetched word `w`. The last arm, a format that is none of R, I, J, is unreachable and faults
(R148). -/
def cycleOn (c : Config) (w : Word) (s : State) : CycleResult :=
  let d := decoderOut c w
  let pv := d.validity == .partiallyValid
  if d.entry = none then .stopped (.fault (.unknownInstruction w))
  else if d.entry = some .exit then .halted (s.commit rowZero .halted pv (s.pc + 4))
  else
    match controlRom c d.opcode false with
    | none => .stopped (.fault (.unsupportedOpcode d.opcode d.funct))
    | some sig =>
      match d.format with
      | .j => cycleJ d sig pv s
      | .r => cycleR c d sig pv s
      | .i => cycleI c d sig pv s
      | .none => .stopped (.fault (.unsupportedOpcode d.opcode d.funct))

/-- One cycle (R145) for the parameters `c`. -/
def cycle (c : Config) (s : State) : CycleResult :=
  match fetch c s.pc s with
  | .error e => .stopped e
  | .ok w => cycleOn c w s

end Sys2Proof.Machine
end

