-- ==== Sys2Proof/Machine/Blocks.lean ====
section
/-!
DEFINITION. The six hardware blocks at their ports (40_blocks_and_cycle.md R130 to R136, ports by D17) and their wiring. One
call of `coreTick` is one rising edge of `clk`. instruction_decoder is `decoderOut` (R132) and control_signal_rom is
`controlRom` (R133). Choices the port tables leave open: log 23.
-/

namespace Sys2Proof.Machine

/-! ## program_counter (R131) -/

/-- Input ports of program_counter. -/
structure PcIn where
  rst : Bool
  loadClr : Bool
  we : Bool
  nextPc : Word
deriving DecidableEq, Repr

/-- The register at the clock edge: cleared by reset and load, written by the commit. -/
def programCounterTick (i : PcIn) (pc : Word) : Word :=
  if i.rst || i.loadClr then 0 else if i.we then i.nextPc else pc

/-! ## register_file (R135) -/

/-- Input ports of register_file, the read addresses apart (`readRegs` is a read port). -/
structure RegFileIn where
  rst : Bool
  we : Bool
  wa : RegIndex
  wd : Word
  hAddr : RegIndex
  hWe : Bool
  hWdata : Word
deriving DecidableEq, Repr

/-- The register file at the clock edge: reset, else the datapath's write, else the host's (usable between cycles only). -/
def registerFileTick (c : Config) (i : RegFileIn) (x : Vector Word 32) : Vector Word 32 :=
  if i.rst then (Vector.replicate 32 c.regReset).set 0 0
  else if i.we then writeRegs x i.wa i.wd
  else if i.hWe then writeRegs x i.hAddr i.hWdata
  else x

/-- `h_rdata` of register_file, the host's `readRegister` port (R336). -/
def hRegRdata (x : Vector Word 32) (hAddr : RegIndex) : Word := readRegs x hAddr

/-! ## memory_unit (R136) -/

/-- `i_oob`. -/
def iOob (c : Config) (a : Word) : Bool := decide (c.imemBytes ≤ a.toNat)

/-- `i_word`. -/
def iWord (imem : InstrMemory) (a : Word) : Word := sparseGet imem (a.toNat / 4)

/-- `d_oob`. -/
def dOob (c : Config) (re we : Bool) (a : Word) : Bool := (re || we) && !decide (dataInBounds c a)

/-- `d_rdata`. -/
def dRdata (c : Config) (dmem : Memory) (a : Word) : Word := readWord c.byteOrder dmem a.toNat

/-- `h_rdata` of memory_unit, the host's `readMemoryWord` port (R336); meaningful when `h_addr` is in bounds, as `d_rdata` is. -/
def hRdata (c : Config) (dmem : Memory) (a : Word) : Word := dRdata c dmem a

/-- Clocked input ports of memory_unit; `dWe` is already gated by "outcome is not Fault". -/
structure MemIn where
  rst : Bool
  iLoadWe : Bool
  iLoadSlot : BitVec 8
  iLoadWord : Word
  dAddr : Word
  dWe : Bool
  dWdata : Word
deriving DecidableEq, Repr

/-- Data memory at the clock edge: zero-filled by reset, else the store. -/
def dataMemoryTick (c : Config) (i : MemIn) (m : Memory) : Memory :=
  if i.rst then [] else if i.dWe then writeWord c.byteOrder m i.dAddr.toNat i.dWdata else m

/-- Instruction memory at the clock edge: kept by reset, whatever the load port asks for (R136; `rst` first: log 23), else
written by the host's load port only. -/
def instrMemoryTick (c : Config) (i : MemIn) (m : InstrMemory) : InstrMemory :=
  if i.rst then m
  else if i.iLoadWe && decide (i.iLoadSlot.toNat < c.imemSlots) then sparseSet m i.iLoadSlot.toNat i.iLoadWord
  else m

/-! ## single_cycle_datapath (R134) -/

/-- `fault_kind`. -/
inductive FaultKind where
  | outOfBoundsFetch
  | unknownInstruction
  | unsupportedOpcode
  | outOfBoundsData
deriving DecidableEq, Repr

/-- Input ports of the CORE (R134) with the host's ports of the other blocks. -/
structure CoreIn where
  rst : Bool
  stepEn : Bool
  loadClr : Bool
  iLoadWe : Bool
  iLoadSlot : BitVec 8
  iLoadWord : Word
  hAddr : RegIndex
  hWe : Bool
  hWdata : Word
deriving DecidableEq, Repr

/-- Output ports of the CORE for the cycle just ended (R134). -/
structure CoreOut where
  executed : Bool
  halted : Bool
  fault : Option FaultKind
  faultInfo : Word
  partiallyValid : Bool
deriving DecidableEq, Repr

/-- The ALU of the datapath with its operand selection (R141 to R143): none where the dispatch has no operation. -/
def datapathAlu (c : Config) (d : DecoderOut) (sig : ControlSignals) (rd1 rd2 : Word) : Option Word :=
  let a := if d.format = .r ∧ d.type = some .shift then rd2 else rd1
  let b := if d.format = .r ∧ d.type = some .shift then zext32 d.shamt
    else if sig.aluSrc then sext32 d.imm16 else rd2
  (aluDispatch c sig.aluOp1 sig.aluOp0 d.funct).map fun op => alu op a b

/-- The instruction does not use the ALU: J, EXIT, NOP and JR (R139, R145). -/
def bypassesAlu (d : DecoderOut) : Bool :=
  d.entry == some .j || d.entry == some .exit || d.entry == some .nop || d.entry == some .jr

/-- The next-address logic (R264). -/
def nextAddress (c : Config) (d : DecoderOut) (sig : ControlSignals) (pc rd1 res : Word) : Word :=
  if d.entry = some .j then jumpTarget pc d.target
  else if d.entry = some .jr then jrTarget c rd1
  else if sig.branch && isZero res then branchTarget pc d.imm16
  else pc + 4

/-- The fault of the cycle, the first in phase order (R303), with its info word. The model's choice (log 4, log 23): the blocks
do not read MISALIGNED_POLICY; the ports of R134 and R136 have no way to report a refusal, so under either value of the policy a
misaligned access in bounds is performed here, and only `cycle` and the meanings of LW and SW refuse it under `refuse`. -/
def datapathFault (c : Config) (d : DecoderOut) (pc w : Word) (sig : Option ControlSignals) (res : Option Word) :
    Option (FaultKind × Word) :=
  if iOob c pc then some (.outOfBoundsFetch, pc)
  else if d.entry = none then some (.unknownInstruction, w)
  else match sig with
    | none => some (.unsupportedOpcode, w)
    | some g =>
      if bypassesAlu d then none
      else match res with
        | none => some (.unsupportedOpcode, w)
        | some a => if dOob c g.memRead g.memWrite a then some (.outOfBoundsData, a) else none

/-- One clock edge of the wired CORE: the state after it and its outputs. `rst` has precedence; without `stepEn` only the host's
ports act. The datapath gates register writes with RegWrite and data reads with MemRead, which R147 says changes nothing.
The model's choices: misaligned accesses are performed under either policy (log 4, log 23); on the outputs (log 23),
`partially_valid` is 0 in a cycle that faults, also where the word decodes to a partially valid instruction (an SLL with `rs`
not 0), and `fault_info` is 0 wherever `fault` is none, on a `stepEn` edge too. -/
def coreTick (c : Config) (i : CoreIn) (s : State) : State × CoreOut :=
  let w := iWord s.imem s.pc
  let d := decoderOut c w
  let rom := controlRom c d.opcode (d.entry == some .exit)
  let sig := rom.getD rowZero
  let rd1 := readRegs s.regs d.rs
  let rd2 := readRegs s.regs d.rt
  let res := datapathAlu c d sig rd1 rd2
  let addr := res.getD 0
  let fault := datapathFault c d s.pc w rom res
  let run := i.stepEn && !i.rst
  let commits := run && fault.isNone
  let pv := d.validity == .partiallyValid
  let regIn : RegFileIn :=
    { rst := i.rst
      we := commits && sig.regWrite && !bypassesAlu d
      wa := if d.format = .r then d.rd else d.rt
      wd := if sig.memToReg then dRdata c s.dmem addr else addr
      hAddr := i.hAddr, hWe := i.hWe && !i.stepEn, hWdata := i.hWdata }
  let memIn : MemIn :=
    { rst := i.rst
      iLoadWe := i.iLoadWe && !i.stepEn, iLoadSlot := i.iLoadSlot, iLoadWord := i.iLoadWord
      dAddr := addr, dWe := commits && sig.memWrite, dWdata := rd2 }
  let pcIn : PcIn :=
    { rst := i.rst, loadClr := i.loadClr && !i.stepEn, we := commits, nextPc := nextAddress c d sig s.pc rd1 addr }
  let ended : CycleEnd := if d.entry = some .exit then .halted else .executed
  ({ regs := registerFileTick c regIn s.regs
     pc := programCounterTick pcIn s.pc
     imem := instrMemoryTick c memIn s.imem
     dmem := dataMemoryTick c memIn s.dmem
     ctrl := if i.rst then rowZero else if commits then sig else s.ctrl
     out := if i.rst then ⟨none, false⟩ else if commits then ⟨some ended, pv⟩ else s.out },
   { executed := commits && ended == .executed
     halted := commits && ended == .halted
     fault := if run then fault.map Prod.fst else none
     faultInfo := if run then (fault.map Prod.snd).getD 0 else 0
     partiallyValid := commits && pv })

/-- The inputs of an idle edge: nothing asserted. -/
def CoreIn.idle : CoreIn := ⟨false, false, false, false, 0, 0, 0, false, 0⟩

/-- The inputs of one `step()`. -/
def CoreIn.step : CoreIn := { CoreIn.idle with stepEn := true }

/-- The inputs of `reset()`. -/
def CoreIn.reset : CoreIn := { CoreIn.idle with rst := true }

/-- What the output ports say of a cycle's outcome; the info word of `UnsupportedOpcode` is the fetched word (log 23). -/
def CycleResult.ports (r : CycleResult) (w : Word) : CoreOut :=
  match r with
  | .executed s => ⟨true, false, none, 0, s.out.partiallyValid⟩
  | .halted s => ⟨false, true, none, 0, s.out.partiallyValid⟩
  | .stopped (.fault (.outOfBoundsFetch a)) => ⟨false, false, some .outOfBoundsFetch, a, false⟩
  | .stopped (.fault (.unknownInstruction u)) => ⟨false, false, some .unknownInstruction, u, false⟩
  | .stopped (.fault (.unsupportedOpcode _ _)) => ⟨false, false, some .unsupportedOpcode, w, false⟩
  | .stopped (.fault (.outOfBoundsData a)) => ⟨false, false, some .outOfBoundsData, a, false⟩
  | .stopped (.refused _) => ⟨false, false, none, 0, false⟩

/-- The state after a cycle: unchanged unless the cycle ended (R146). -/
def CycleResult.stateAfter (r : CycleResult) (s : State) : State :=
  match r with
  | .executed t => t
  | .halted t => t
  | .stopped _ => s

end Sys2Proof.Machine
end

