-- ==== Sys2Proof/Machine/Assembler.lean ====
section
/-!
DEFINITION. The textual form of instructions: register names (10_state.md R32), numeric literals (30_encoding.md R110, R111),
`decode(mnemonic)` (R107 to R109, R115) and program text (R114). Text is a list of characters. The points the spec leaves to
the model (separators, order of the checks) are log 20.
-/

namespace Sys2Proof.Machine

/-! ## Characters and tokens -/

/-- Whitespace inside a line. -/
def isBlank (ch : Char) : Bool := ch == ' ' || ch == '\t' || ch == '\r'

/-- The characters a mnemonic line may hold (R107). The model's choice (log 20): parentheses are legal characters anywhere in
a line, so that one outside the offset form fails later, in the name (`nop()` is an unknown mnemonic) or in the argument. -/
def isLegal (ch : Char) : Bool :=
  ch.isAlphanum || ch == '$' || ch == '-' || ch == ',' || ch == '(' || ch == ')' || isBlank ch

/-- Drop whitespace at both ends. -/
def trim (t : List Char) : List Char := ((t.dropWhile isBlank).reverse.dropWhile isBlank).reverse

/-- Cut a text at every occurrence of `sep`; a text without one is one piece. -/
def splitAtChar (sep : Char) : List Char → List (List Char)
  | [] => [[]]
  | ch :: rest =>
    match splitAtChar sep rest with
    | [] => [[ch]]
    | piece :: more => if ch = sep then [] :: piece :: more else (ch :: piece) :: more

/-- The argument list of a line after its name: comma-separated, each argument trimmed; nothing at all is no argument. -/
def splitArgs (t : List Char) : List (List Char) :=
  if trim t = [] then [] else (splitAtChar ',' t).map trim

/-! ## Numeric literals (R110) -/

/-- The value of a digit, letters in either case. -/
def digitValue (ch : Char) : Option Nat :=
  if '0' ≤ ch ∧ ch ≤ '9' then some (ch.toNat - '0'.toNat)
  else if 'a' ≤ ch ∧ ch ≤ 'f' then some (ch.toNat - 'a'.toNat + 10)
  else if 'A' ≤ ch ∧ ch ≤ 'F' then some (ch.toNat - 'A'.toNat + 10)
  else none

/-- Digits of a base after the value `acc` read so far. -/
def digitsFrom (base acc : Nat) : List Char → Option Nat
  | [] => some acc
  | ch :: rest =>
    match digitValue ch with
    | some d => if d < base then digitsFrom base (acc * base + d) rest else none
    | none => none

/-- One or more digits of a base. -/
def parseDigits (base : Nat) (t : List Char) : Option Nat :=
  if t = [] then none else digitsFrom base 0 t

/-- A literal without its sign: bare decimal digits, or `0x`, `0b`, `0d` in either case and digits (R110). -/
def parseMagnitude (t : List Char) : Option Nat :=
  match t with
  | '0' :: p :: rest =>
    if p = 'x' ∨ p = 'X' then parseDigits 16 rest
    else if p = 'b' ∨ p = 'B' then parseDigits 2 rest
    else if p = 'd' ∨ p = 'D' then parseDigits 10 rest
    else parseDigits 10 t
  | _ => parseDigits 10 t

/-- The numeric literal grammar of R110, whitespace-trimmed. -/
def parseLiteral (t : List Char) : Option Int :=
  match trim t with
  | '-' :: rest => (parseMagnitude rest).map fun n => -(n : Int)
  | u => (parseMagnitude u).map fun n => (n : Int)

/-! ## Registers (R32, R109) -/

/-- The symbolic names, in the order of their indices (R32; D3). -/
def registerNames : List String :=
  ["zero", "at", "v0", "v1", "a0", "a1", "a2", "a3", "t0", "t1", "t2", "t3", "t4", "t5", "t6", "t7",
   "s0", "s1", "s2", "s3", "s4", "s5", "s6", "s7", "t8", "t9", "k0", "k1", "gp", "sp", "fp", "ra"]

/-- The index of a name in a list of names, counting from `k`. -/
def nameIndexFrom (k : Nat) (name : List Char) : List String → Option Nat
  | [] => none
  | n :: rest => if n.toList = name then some k else nameIndexFrom (k + 1) name rest

/-- A register argument: `$` and a symbolic name, or `$` and a decimal index 0 to 31 (R109). -/
def parseRegister (t : List Char) : Option RegIndex :=
  match t with
  | '$' :: name =>
    match nameIndexFrom 0 name registerNames with
    | some k => some (BitVec.ofNat 5 k)
    | none =>
      match parseDigits 10 name with
      | some k => if k < 32 then some (BitVec.ofNat 5 k) else none
      | none => none
  | _ => none

/-! ## Arguments -/

/-- The argument patterns of R108. -/
inductive ArgPattern where
  | noArgs
  | rdRsRt
  | rdRtShamt
  | rsOnly
  | rtRsImm
  | rtOffset
  | rsRtImm
  | targetOnly
deriving DecidableEq, Repr

/-- The `syntax` column of R108. -/
def patternOf : Entry → ArgPattern
  | .nop | .exit => .noArgs
  | .add | .sub | .and | .or | .nor | .slt => .rdRsRt
  | .sll | .srl | .sra => .rdRtShamt
  | .jr => .rsOnly
  | .addi | .ori => .rtRsImm
  | .lw | .sw => .rtOffset
  | .beq => .rsRtImm
  | .j => .targetOnly

/-- The mnemonic of an entry (R108; lower case only, D23). -/
def mnemonicOf : Entry → String
  | .nop => "nop"
  | .exit => "exit"
  | .sll => "sll"
  | .srl => "srl"
  | .sra => "sra"
  | .jr => "jr"
  | .add => "add"
  | .sub => "sub"
  | .and => "and"
  | .or => "or"
  | .nor => "nor"
  | .slt => "slt"
  | .j => "j"
  | .beq => "beq"
  | .addi => "addi"
  | .ori => "ori"
  | .lw => "lw"
  | .sw => "sw"

/-- The catalog in the order of R100's table. -/
def catalog : List Entry :=
  [.nop, .sll, .srl, .sra, .jr, .add, .sub, .and, .or, .nor, .slt, .j, .beq, .addi, .ori, .lw, .sw, .exit]

/-- The entry of a mnemonic name. -/
def lookupName (name : List Char) : Option Entry := catalog.find? fun e => (mnemonicOf e).toList == name

/-- `some` value, or the error of an offending fragment (R115). -/
def orMalformed {α : Type} (fragment : List Char) : Option α → Except CodecError α
  | some a => .ok a
  | none => .error (.malformedMnemonic fragment)

/-- A register argument or its error (R109). -/
def argRegister (t : List Char) : Except CodecError RegIndex := orMalformed t (parseRegister t)

/-- A literal in a field: `lo <= v <= hi`, encoded modulo the field's width (R111). -/
def literalField (n : Nat) (lo hi : Int) (t : List Char) : Option (BitVec n) :=
  match parseLiteral t with
  | some v => if lo ≤ v ∧ v ≤ hi then some (BitVec.ofInt n v) else none
  | none => none

/-- An immediate argument: `-32768 .. 65535` (R111). -/
def argImmediate (t : List Char) : Except CodecError (BitVec 16) := orMalformed t (literalField 16 (-32768) 65535 t)

/-- A shift-amount argument: `0 .. 31` (R111). -/
def argShamt (t : List Char) : Except CodecError (BitVec 5) := orMalformed t (literalField 5 0 31 t)

/-- A jump-target argument: `0 .. 2^26 - 1` (R111). -/
def argTarget (t : List Char) : Except CodecError (BitVec 26) := orMalformed t (literalField 26 0 67108863 t)

/-- Offset form `imm(reg)` (R107): the immediate and the register, nothing after the closing parenthesis. The model's choice
(log 20): blanks around the immediate, around the register and after the closing parenthesis are dropped. -/
def argOffset (t : List Char) : Except CodecError (BitVec 16 × RegIndex) :=
  match splitAtChar '(' t with
  | [immText, inner] =>
    match splitAtChar ')' inner with
    | [regText, after] =>
      if trim after = [] then do
        let imm ← argImmediate (trim immText)
        let rs ← argRegister (trim regText)
        return (imm, rs)
      else .error (.malformedMnemonic t)
    | _ => .error (.malformedMnemonic t)
  | _ => .error (.malformedMnemonic t)

/-- An R-format entry's instruction from its fields; only R-format entries are given to it. -/
def rInstr (e : Entry) (rs rt rd : RegIndex) (shamt : BitVec 5) : Option Instr :=
  match e with
  | .sll => some (.sll rs rt rd shamt)
  | .srl => some (.srl rs rt rd shamt)
  | .sra => some (.sra rs rt rd shamt)
  | .jr => some (.jr rs rt rd shamt)
  | .add => some (.add rs rt rd shamt)
  | .sub => some (.sub rs rt rd shamt)
  | .and => some (.and rs rt rd shamt)
  | .or => some (.or rs rt rd shamt)
  | .nor => some (.nor rs rt rd shamt)
  | .slt => some (.slt rs rt rd shamt)
  | .nop | .exit | .j | .beq | .addi | .ori | .lw | .sw => none

/-- An I-format entry's instruction from its fields; only I-format entries are given to it. -/
def iInstr (e : Entry) (rs rt : RegIndex) (imm : BitVec 16) : Option Instr :=
  match e with
  | .beq => some (.beq rs rt imm)
  | .addi => some (.addi rs rt imm)
  | .ori => some (.ori rs rt imm)
  | .lw => some (.lw rs rt imm)
  | .sw => some (.sw rs rt imm)
  | .nop | .exit | .j | .sll | .srl | .sra | .jr | .add | .sub | .and | .or | .nor | .slt => none

/-- The instruction of an entry and its arguments (R108); fields the pattern does not mention are 0 (R107). `line` is the
fragment reported when the argument count is wrong (R115). -/
def buildInstr (e : Entry) (args : List (List Char)) (line : List Char) : Except CodecError Instr :=
  match patternOf e, args with
  | .noArgs, [] => .ok (ofFields e 0)
  | .rdRsRt, [a, b, d] => do
    let rd ← argRegister a
    let rs ← argRegister b
    let rt ← argRegister d
    orMalformed line (rInstr e rs rt rd 0)
  | .rdRtShamt, [a, b, d] => do
    let rd ← argRegister a
    let rt ← argRegister b
    let shamt ← argShamt d
    orMalformed line (rInstr e 0 rt rd shamt)
  | .rsOnly, [a] => do
    let rs ← argRegister a
    orMalformed line (rInstr e rs 0 0 0)
  | .rtRsImm, [a, b, d] => do
    let rt ← argRegister a
    let rs ← argRegister b
    let imm ← argImmediate d
    orMalformed line (iInstr e rs rt imm)
  | .rtOffset, [a, b] => do
    let rt ← argRegister a
    let off ← argOffset b
    orMalformed line (iInstr e off.2 rt off.1)
  | .rsRtImm, [a, b, d] => do
    let rs ← argRegister a
    let rt ← argRegister b
    let imm ← argImmediate d
    orMalformed line (iInstr e rs rt imm)
  | .targetOnly, [a] => do
    let target ← argTarget a
    return .j target
  | _, _ => .error (.malformedMnemonic line)

/-! ## Lines and programs -/

/-- The word of one mnemonic line (R107): legal characters, then the name, then the arguments. -/
def assembleLine (c : Config) (t : List Char) : Except CodecError Word :=
  let line := trim t
  match line.find? fun ch => !isLegal ch with
  | some ch => .error (.malformedMnemonic [ch])
  | none =>
    let name := line.takeWhile fun ch => !isBlank ch && ch != ','
    let rest := line.dropWhile fun ch => !isBlank ch && ch != ','
    if name = [] then .error (.malformedMnemonic line)
    else
      match lookupName name with
      | none => .error (.unknownMnemonic name)
      | some e =>
        match buildInstr e (splitArgs rest) line with
        | .ok i => .ok (encode c i)
        | .error err => .error err

/-- `decode(mnemonic)`: the instruction of the composed word, so that the word and the fields are always consistent (R107,
R112). The text `sll $zero, $zero, 0` is therefore the no-op (R203). -/
def decodeMnemonic (c : Config) (t : List Char) : Except CodecError Instr :=
  match assembleLine c t with
  | .ok w => decode c w
  | .error err => .error err

/-- A raw machine word as text (R110), and the instruction it decodes to. The model's choice (log 20): the accepted range, and
that a text that is no literal or lies outside the range is malformed, reported with the whole text. -/
def decodeNumeric (c : Config) (t : List Char) : Except CodecError Instr :=
  match orMalformed t (literalField 32 (-2147483648) 4294967295 t) with
  | .ok w => decode c w
  | .error err => .error err

/-- The words of the non-blank lines, in order; the first line that fails gives the error (R114, R115). -/
def assembleLines (c : Config) : List (List Char) → Except CodecError (List Word)
  | [] => .ok []
  | l :: rest =>
    if trim l = [] then assembleLines c rest
    else
      match assembleLine c l with
      | .error err => .error err
      | .ok w =>
        match assembleLines c rest with
        | .ok ws => .ok (w :: ws)
        | .error err => .error err

/-- Program source text (R114): one mnemonic instruction per line. -/
def assembleProgram (c : Config) (text : List Char) : Except CodecError (List Word) :=
  assembleLines c (splitAtChar '\n' text)

end Sys2Proof.Machine
end

