-- ==== Sys2Proof/Machine/HostOps.lean ====
section
/-!
DEFINITION. What the host can do between cycles (70_reset_and_hazards.md R330 to R340): construct, load, reset, step, run, the
read accessors and writeRegister. `cycle`-level outcomes come from `step`; the halt is read from the port `out.ended`.
-/

namespace Sys2Proof.Machine

/-! ## Construction, load, reset -/

/-- Construction (power-up) (R330). -/
def construct : State := State.reset

/-- `reset()` (R332): registers, `pc`, data memory and the control signals as after construction; the loaded program kept. -/
def hostReset (s : State) : State := { State.reset with imem := s.imem }

/-- Why a load fails (R331). -/
inductive LoadError where
  /-- `OutOfBounds`: more instructions than slots. -/
  | outOfBounds (n : Nat)
  /-- A line does not decode. -/
  | decode (e : CodecError)
deriving DecidableEq, Repr

/-- Instruction memory holding `ws` from slot `k` on, no-ops elsewhere (R331). -/
def imemFrom (k : Nat) : List Word → InstrMemory
  | [] => []
  | w :: rest => if w = unlisted then imemFrom (k + 1) rest else (k, w) :: imemFrom (k + 1) rest

/-- `load` of words (R331): the program in slots 0.., no-ops above, `pc` 0, nothing else; too long a program changes nothing. -/
def loadWords (c : Config) (ws : List Word) (s : State) : Except LoadError State :=
  if ws.length ≤ c.imemSlots then .ok { s with imem := imemFrom 0 ws, pc := 0 }
  else .error (.outOfBounds ws.length)

/-- `load` of program text (R114, R331): a failed load changes nothing (D28). The model's choice (log 13): all lines are
decoded before the capacity is checked, so a text that has both failures returns the decode error. -/
def loadText (c : Config) (text : List Char) (s : State) : Except LoadError State :=
  match assembleProgram c text with
  | .ok ws => loadWords c ws s
  | .error e => .error (.decode e)

/-! ## Step and run -/

/-- `step() -> halted` (R333): true for `Halted`, false for `Executed`, the error for a fault. -/
def hostStep (s : State) : Except Stop (Bool × State) :=
  match step s with
  | .next t => .ok (t.out.ended == some .halted, t)
  | .fault r => .error (.fault r)
  | .refused r => .error (.refused r)

/-- How a run stands (R334, R335). -/
inductive RunEnd where
  /-- The stop signal was up at a cycle boundary. -/
  | cancelled (s : State)
  /-- The last cycle's outcome was `Halted`: the run has ended normally. -/
  | halted (s : State)
  /-- A cycle stopped; the state is the one before it. -/
  | failed (e : Stop) (s : State)
  /-- The samples given are used up and the run goes on. -/
  | running (s : State)
deriving DecidableEq, Repr

/-- `run(cancellation check)` (R334): the stop signal is sampled before each cycle, the first included; `stops` is the list of
its samples (log 24). -/
def run : List Bool → State → RunEnd
  | [], s => .running s
  | true :: _, s => .cancelled s
  | false :: stops, s =>
    match hostStep s with
    | .ok (true, t) => .halted t
    | .ok (false, t) => run stops t
    | .error e => .failed e s

/-! ## Accessors (R336, R337) -/

/-- `readRegister(name)`: the signed value (R336); none when the name resolves to no register (the model's choice, log 32). -/
def readRegister (name : List Char) (s : State) : Option Int := (parseRegister name).map fun r => (s.reg r).toInt

/-- `writeRegister(name, value)`, between cycles; a write to `$zero` is discarded (R33, R337). The model's choice (log 32): none,
and nothing written, when the name resolves to no register. -/
def writeRegister (name : List Char) (v : Word) (s : State) : Option State := (parseRegister name).map fun r => s.setReg r v

/-- `readMemoryWord(address)`: `MemRead(address, 4)` as a signed integer (R77, R336). -/
def readMemoryWord (a : Word) (s : State) : Except Stop Int :=
  match memRead config a s with
  | .ok v => .ok v.toInt
  | .error e => .error e

/-- `programCounterAddress()` (R336). -/
def programCounterAddress (s : State) : Nat := s.pc.toNat

/-- `currentInstruction()`: the decoded instruction at the current `pc` (R336; D29). -/
def currentInstruction (s : State) : Except Stop Instr := fetchDecode config s

end Sys2Proof.Machine
end

