-- ==== Sys2Proof/Safety.lean ====
section
/-!
DEFINITION. What a legal state and a safe run are. The invariant says what the spec says of every state between cycles; a
run is safe while no cycle stops.
-/

namespace Sys2Proof.Machine

/-- What holds of every state between cycles: both memories in canonical form and listing backed cells only (20_memory.md R61),
the hardwired register's slot holding 0 (R33), and `pc` word-aligned (R38). -/
structure State.Inv (c : Config) (s : State) : Prop where
  dmemCanonical : Memory.wf s.dmem = true
  dmemBacked : keysBelow c.dmemBytes s.dmem = true
  imemCanonical : InstrMemory.wf s.imem = true
  imemBacked : keysBelow c.imemSlots s.imem = true
  zeroSlot : s.regs.get 0 = 0
  pcAligned : s.pc.toNat % 4 = 0

/-- `t` is reached from `s` by cycles that each end in a next state. -/
inductive Reaches : State → State → Prop where
  | refl (s : State) : Reaches s s
  | tail {s t u : State} : Reaches s t → step t = .next u → Reaches s u

/-- No cycle of any run from `s` stops: every reached state has a next state. -/
def State.Safe (s : State) : Prop := ∀ t, Reaches s t → ∃ u, step t = .next u

end Sys2Proof.Machine
end

