-- ==== Sys2Proof/Certificates/Slice0/Obligations.lean ====
section
/-!
DEFINITION. The statements for the provers, from the numbered rules of spec/. The vocabulary they share comes first
(namespace Sys2Proof.Claims); each `Obligations.<Name>` is one statement.
-/

namespace Sys2Proof.Claims

open Sys2Proof.Machine

/-- Every byte of data memory and every slot of instruction memory reads as before. -/
def SameMemory (s t : State) : Prop := (∀ a, t.byte a = s.byte a) ∧ ∀ k, t.slot k = s.slot k

/-- Every register reads as before. -/
def SameRegisters (s t : State) : Prop := ∀ q, t.reg q = s.reg q

/-- Register `rd` holds `v` (0 when it is the hardwired register, R33), every other register reads as before. -/
def RegisterIs (s t : State) (rd : RegIndex) (v : Word) : Prop :=
  t.reg rd = (if rd = 0 then 0 else v) ∧ ∀ q, q ≠ rd → t.reg q = s.reg q

/-- The control signals (R45, log 12) and the outcome ports (R134; the model's own field `out`, log 10) after a cycle that ended
as `e`. -/
def EndsAs (t : State) (row : ControlSignals) (e : CycleEnd) (pv : Bool) : Prop := t.ctrl = row ∧ t.out = ⟨some e, pv⟩

/-- The whole effect of an instruction that writes `v` to `rd` and nothing else but `pc` (by 4) and the cycle's outputs. -/
def WritesRegister (i : Instr) (s : State) (row : ControlSignals) (rd : RegIndex) (v : Word) : Prop :=
  ∃ t, exec i s = .next t ∧ RegisterIs s t rd v ∧ t.pc = s.pc + 4 ∧ SameMemory s t ∧
    EndsAs t row .executed i.partiallyValid

/-- The whole effect of an instruction that writes nothing but `pc` and the cycle's outputs. -/
def Transfers (i : Instr) (s : State) (row : ControlSignals) (e : CycleEnd) (next : Word) : Prop :=
  ∃ t, exec i s = .next t ∧ SameRegisters s t ∧ t.pc = next ∧ SameMemory s t ∧ EndsAs t row e i.partiallyValid

/-- `(a + b) mod 2^32` computed on the exact signed integers. -/
def wrapAdd (a b : Int) : Word := BitVec.ofInt 32 (a + b)

/-- The register an instruction writes (R34). -/
def destination : Instr → Option RegIndex
  | .add _ _ rd _ | .sub _ _ rd _ | .and _ _ rd _ | .or _ _ rd _ | .nor _ _ rd _ | .slt _ _ rd _ => some rd
  | .srl _ _ rd _ | .sra _ _ rd _ => some rd
  | .addi _ rt _ | .ori _ rt _ | .lw _ rt _ => some rt
  | .sw .. | .beq .. | .j .. | .jr .. | .nop | .exit | .sll .. => none

/-- The registers an instruction reads (R34). -/
def sources : Instr → List RegIndex
  | .add rs rt _ _ | .sub rs rt _ _ | .and rs rt _ _ | .or rs rt _ _ | .nor rs rt _ _ | .slt rs rt _ _ => [rs, rt]
  | .srl _ rt _ _ | .sra _ rt _ _ => [rt]
  | .jr rs _ _ _ => [rs]
  | .addi rs _ _ | .ori rs _ _ | .lw rs _ _ => [rs]
  | .sw rs rt _ | .beq rs rt _ => [rs, rt]
  | .j .. | .nop | .exit | .sll .. => []

/-- The next `pc` of each instruction (R37, R264), written on numbers: BEQ relative to its own address, J in the 256 MiB region
of the following address, JR the register times `2^JR_SHIFT`, all modulo 2^32. -/
def nextPc (i : Instr) (s : State) : Word :=
  match i with
  | .beq rs rt imm =>
    if s.reg rs = s.reg rt then BitVec.ofInt 32 (s.pc.toNat + 4 * imm.toInt) else s.pc + 4
  | .j target => BitVec.ofNat 32 (4 * target.toNat + (s.pc + 4).toNat / 2 ^ 28 * 2 ^ 28)
  | .jr rs _ _ _ => BitVec.ofNat 32 ((s.reg rs).toNat * 2 ^ config.jrShift)
  | .nop | .exit | .add .. | .sub .. | .and .. | .or .. | .nor .. | .slt .. | .sll .. | .srl .. | .sra .. | .addi .. | .ori ..
  | .lw .. | .sw .. => s.pc + 4

/-- `n` cycles from `s` to `t`, each with outcome `Executed`. -/
inductive ExecutedFor : Nat → State → State → Prop where
  | zero (s : State) : ExecutedFor 0 s s
  | succ {n : Nat} {s t u : State} : cycle config s = .executed t → ExecutedFor n t u → ExecutedFor (n + 1) s u

/-- A line of assembler text: a mnemonic, a blank, and arguments separated by commas. -/
def lineOf (e : Entry) (args : List (List Char)) : List Char :=
  (mnemonicOf e).toList ++ ' ' :: (args.intersperse [',']).flatten

end Sys2Proof.Claims

open Sys2Proof Sys2Proof.Machine Sys2Proof.Claims

/-! ## Parameters and encoding -/

/-- The parameter values of this hardware meet R5's constraints (the values that are the spec's own: log 1 to 7). -/
def Obligations.ConfigMeetsParameterConstraints : Prop := config.Valid

/-- For every valid choice of the parameters (R5), the decoding of the word of a well-formed instruction is that instruction,
every field at every value (R97, R99: the unused fields included). -/
def Obligations.DecodeInvertsEncode : Prop :=
  ∀ c : Config, c.Valid → ∀ i : Instr, i.wf = true → decode c (encode c i) = .ok i

/-- For every valid choice of the parameters, an instruction a word decodes to is well-formed and has that word: no two
instructions share a word and no bit of a known word is lost. -/
def Obligations.EncodeInvertsDecode : Prop :=
  ∀ c : Config, c.Valid → ∀ (w : Word) (i : Instr), decode c w = .ok i → i.wf = true ∧ encode c i = w

/-- The decoder agrees with the match / mask table of R100: the two whole words first, then the one row whose masked match
holds (the numbers are D1's and D2's, log 1 and 2). -/
def Obligations.DecodeFollowsMatchMaskTable : Prop :=
  ∀ (w : Word) (e : Entry), entryOf config w = some e ↔
    (w = 0 ∧ e = .nop) ∨ (w = 0xFFFFFFFF ∧ e = .exit) ∨
    (w ≠ 0 ∧ w ≠ 0xFFFFFFFF ∧ e ≠ .nop ∧ e ≠ .exit ∧ w &&& e.maskWord = e.matchWord)

/-- The unknown words are exactly those R103 lists, and decoding rejects them by name. -/
def Obligations.UnknownWordsAreExactlyTheRest : Prop :=
  ∀ w : Word, decode config w = .error (.unknownInstruction w) ↔
    w ≠ 0xFFFFFFFF ∧
    ((opcodeOf w = 0 ∧ functOf w ∉ [0x00, 0x02, 0x03, 0x08, 0x20, 0x22, 0x24, 0x25, 0x27, 0x2A]) ∨
      opcodeOf w ∉ [0x00, 0x02, 0x04, 0x08, 0x0D, 0x23, 0x2B])

/-- R98: the all-zero word is the no-op, no other word is, and any other word with opcode 0 and funct 0 is SLL. -/
def Obligations.OnlyTheZeroWordIsNop : Prop :=
  ∀ c : Config, c.Valid →
    decode c 0 = .ok .nop ∧
    (∀ w, decode c w = .ok .nop → w = 0) ∧
    ∀ w, w ≠ 0 → opcodeOf w = 0 → functOf w = 0 → decode c w = .ok (.sll (rsOf w) (rtOf w) (rdOf w) (shamtOf w))

/-- R93 and R94: `decompose` cuts a word, most significant field first, whenever the widths sum to 32 and fails otherwise (the
three formats' widths do sum to 32); `compose` is its inverse in both directions. -/
def Obligations.ComposeInvertsDecompose : Prop :=
  (∀ (w : Word) (before : List Nat) (n : Nat) (after : List Nat), (before ++ n :: after).sum = 32 →
    ∃ fs, decompose w (before ++ n :: after) = .ok fs ∧ fs.length = before.length + 1 + after.length ∧
      fs[before.length]? = some (w.toNat / 2 ^ after.sum % 2 ^ n)) ∧
  (∀ (w : Word) (widths : List Nat), widths.sum ≠ 32 →
    decompose w widths = .error (.configurationInvariantViolation widths)) ∧
  (∀ f : Format, f ≠ .none → f.widths.sum = 32) ∧
  (∀ (w : Word) (widths fs : List Nat), decompose w widths = .ok fs → compose fs widths = some w) ∧
  ∀ (w : Word) (widths fs : List Nat), compose fs widths = some w → decompose w widths = .ok fs

/-- R95: `bits(hi, lo, word)` is the unsigned integer in bits `lo .. hi`, defined exactly for `0 <= lo < hi <= 31`. -/
def Obligations.BitsReadsTheRange : Prop :=
  ∀ (hi lo : Nat) (w : Word),
    bits hi lo w = if lo < hi ∧ hi ≤ 31 then some (w.extractLsb hi lo).toNat else none

/-- R92: the fields the decoder reads by position are the fields `decompose` cuts with the widths of the formats. -/
def Obligations.FieldsByPositionAreTheFormats : Prop :=
  ∀ w : Word,
    decompose w Format.r.widths = .ok [(opcodeOf w).toNat, (rsOf w).toNat, (rtOf w).toNat, (rdOf w).toNat,
      (shamtOf w).toNat, (functOf w).toNat] ∧
    decompose w Format.i.widths = .ok [(opcodeOf w).toNat, (rsOf w).toNat, (rtOf w).toNat, (immOf w).toNat] ∧
    decompose w Format.j.widths = .ok [(opcodeOf w).toNat, (targetOf w).toNat]

/-- R101: `addi $sp, $sp, -8` and `0x23bdfff8` are the same instruction, of opcode 8, registers 29 and 29, immediate `0xFFF8`,
whose sign extension is -8. -/
def Obligations.AddiWorkedExampleWord : Prop :=
  assembleLine config "addi $sp, $sp, -8".toList = .ok 0x23bdfff8 ∧
  decodeMnemonic config "addi $sp, $sp, -8".toList = .ok (.addi 29 29 0xFFF8) ∧
  decode config 0x23bdfff8 = .ok (.addi 29 29 0xFFF8) ∧
  opcodeOf 0x23bdfff8 = config.opAddi ∧ config.opAddi = 8 ∧ parseRegister "$sp".toList = some 29 ∧
  sext32 0xFFF8 = 0xFFFFFFF8 ∧ (sext32 0xFFF8).toInt = -8

/-- Words written out from R100's encodings, one or more of each family, decode to the instructions they stand for (the words
of 95_test_vectors.md; the opcode numbers are D1's, log 1). -/
def Obligations.SpecWordsDecode : Prop :=
  decodeTableWord 32 0b00000001000010010001000000100000 = some (.add 8 9 2 0) ∧
  decodeTableWord 32 0b00000001001010000101100000100010 = some (.sub 9 8 11 0) ∧
  decodeTableWord 32 0b00000000000010110111011100000010 = some (.srl 0 11 14 28) ∧
  decodeTableWord 32 0b00000000000000000000000001000000 = some (.sll 0 0 0 1) ∧
  decodeTableWord 32 0b00110101000100001111111111111111 = some (.ori 8 16 0xFFFF) ∧
  decodeTableWord 32 0b10001101001010100000000000010100 = some (.lw 9 10 20) ∧
  decodeTableWord 32 0b10101101001010000000000000010100 = some (.sw 9 8 20) ∧
  decodeTableWord 32 0b00010001000010010000000000000110 = some (.beq 8 9 6) ∧
  decodeTableWord 32 0b00001000000000000000000000000010 = some (.j 2) ∧
  decodeTableWord 32 0b00000001001000000000000000001000 = some (.jr 9 0 0 0) ∧
  decodeTableWord 32 0 = some .nop ∧ decodeTableWord 32 0b11111111111111111111111111111111 = some .exit ∧
  decodeTableWord 32 0b00111100000010000000000000000001 = none

/-- R99: the validity flag of a word: unknown when no entry matches, partially valid exactly when some unused field of the
entry is not zero (each such field reported with what was found), fully valid otherwise; the decoded instruction carries the
same flag. -/
def Obligations.ValidityFlagIsUnusedFields : Prop :=
  ∀ w : Word,
    (validityOf config w = .unknown ↔ entryOf config w = none) ∧
    ∀ (e : Entry) (i : Instr), entryOf config w = some e → decode config w = .ok i →
      (validityOf config w = .fullyValid ↔ ∀ f ∈ e.unusedFields, f.valueIn w = 0) ∧
      (validityOf config w = .partiallyValid ↔ ∃ f ∈ e.unusedFields, f.valueIn w ≠ 0) ∧
      (∀ f n, (f, n) ∈ violationsOf e w ↔ f ∈ e.unusedFields ∧ n = f.valueIn w ∧ n ≠ 0) ∧
      (i.partiallyValid = true ↔ validityOf config w = .partiallyValid)

/-- R104: an instruction with non-zero unused fields executes exactly as its fully valid twin, the partially-valid output port
apart. -/
def Obligations.PartiallyValidExecutesAsItsTwin : Prop :=
  ∀ (i : Instr) (s : State),
    (∀ t, exec i s = .next t → exec i.clearUnused s = .next { t with out := { t.out with partiallyValid := false } }) ∧
    (∀ f, exec i s = .fault f → exec i.clearUnused s = .fault f)

/-! ## Registers -/

/-- R33: register 0 reads as 0 in every state, a write to it (an instruction's or the host's) changes nothing and raises
nothing. -/
def Obligations.ZeroRegisterIsHardwired : Prop :=
  ∀ (s : State) (v : Word),
    s.reg 0 = 0 ∧ s.setReg 0 v = s ∧ writeRegister "$zero".toList v s = some s ∧ writeRegister "$0".toList v s = some s ∧
    ∀ (i : Instr) (t : State), exec i s = .next t → t.reg 0 = 0

/-- R31: one bank of 32 registers, no aliasing, whole-word reads and writes, each register addressed by its symbolic name or
its index (the names are D3's, log 30). -/
def Obligations.RegistersDoNotAlias : Prop :=
  (∀ (s : State) (r q : RegIndex) (v : Word), r ≠ 0 →
    (s.setReg r v).reg r = v ∧ (q ≠ r → (s.setReg r v).reg q = s.reg q)) ∧
  ∀ r : RegIndex, parseRegister ('$' :: (registerNames.getD r.toNat "").toList) = some r ∧
    parseRegister ('$' :: Nat.toDigits 10 r.toNat) = some r

/-- R34, writes: no instruction writes a register other than its destination. -/
def Obligations.OnlyTheDestinationRegisterChanges : Prop :=
  ∀ (i : Instr) (s t : State), exec i s = .next t →
    ∀ q : RegIndex, destination i ≠ some q → t.reg q = s.reg q

/-- R34, reads: an instruction's outcome depends on no register it does not read: from two states that differ only in other
registers it stops alike, or gives the same `pc`, memories, outputs and destination value. -/
def Obligations.OutcomeDependsOnSourcesOnly : Prop :=
  ∀ (i : Instr) (s : State) (x : Vector Word 32), (∀ r ∈ sources i, readRegs x r = s.reg r) →
    (∀ t, exec i s = .next t → ∃ u, exec i { s with regs := x } = .next u ∧ u.pc = t.pc ∧ u.dmem = t.dmem ∧
      u.imem = t.imem ∧ u.ctrl = t.ctrl ∧ u.out = t.out ∧ ∀ d, destination i = some d → u.reg d = t.reg d) ∧
    (∀ f, exec i s = .fault f → exec i { s with regs := x } = .fault f)

/-! ## What each instruction does -/

/-- ADD and SUB (R181, R182): the exact sum or difference modulo 2^32, no trap (D14, log 8); destination only, `pc + 4`. -/
def Obligations.AddAndSubWrap : Prop :=
  ∀ (s : State) (rs rt rd : RegIndex) (shamt : BitVec 5),
    WritesRegister (.add rs rt rd shamt) s rowR rd (wrapAdd (s.reg rs).toInt (s.reg rt).toInt) ∧
    WritesRegister (.sub rs rt rd shamt) s rowR rd (wrapAdd (s.reg rs).toInt (-(s.reg rt).toInt))

/-- AND, OR, NOR (R183, R184, R185), bit by bit. -/
def Obligations.LogicIsBitwise : Prop :=
  ∀ (s : State) (rs rt rd : RegIndex) (shamt : BitVec 5),
    (∃ v, WritesRegister (.and rs rt rd shamt) s rowR rd v ∧
      ∀ k < 32, v.getLsbD k = ((s.reg rs).getLsbD k && (s.reg rt).getLsbD k)) ∧
    (∃ v, WritesRegister (.or rs rt rd shamt) s rowR rd v ∧
      ∀ k < 32, v.getLsbD k = ((s.reg rs).getLsbD k || (s.reg rt).getLsbD k)) ∧
    ∃ v, WritesRegister (.nor rs rt rd shamt) s rowR rd v ∧
      ∀ k < 32, v.getLsbD k = !((s.reg rs).getLsbD k || (s.reg rt).getLsbD k)

/-- SLT (R186): 1 or 0 as the true signed values compare. -/
def Obligations.SltComparesSigned : Prop :=
  ∀ (s : State) (rs rt rd : RegIndex) (shamt : BitVec 5),
    WritesRegister (.slt rs rt rd shamt) s rowR rd (if (s.reg rs).toInt < (s.reg rt).toInt then 1 else 0)

/-- SRL and SRA (R201, R202): the value of `rt` divided by `2^shamt`, unsigned for SRL, signed and rounded toward minus
infinity for SRA; `rs` is ignored. -/
def Obligations.RightShiftsDivide : Prop :=
  ∀ (s : State) (rs rt rd : RegIndex) (shamt : BitVec 5),
    WritesRegister (.srl rs rt rd shamt) s rowR rd (BitVec.ofNat 32 ((s.reg rt).toNat / 2 ^ shamt.toNat)) ∧
    WritesRegister (.sra rs rt rd shamt) s rowR rd (BitVec.ofInt 32 (Int.fdiv (s.reg rt).toInt (2 ^ shamt.toNat)))

/-- SLL (R203): in every state it raises UnsupportedOpcode(0, 0) (D30, log 15). -/
def Obligations.SllRaisesUnsupportedOpcode : Prop :=
  ∀ (s : State) (rs rt rd : RegIndex) (shamt : BitVec 5),
    exec (.sll rs rt rd shamt) s = .fault (.unsupportedOpcode 0 0)

/-- ADDI and ORI (R221, R222): both ADD the sign-extended immediate, modulo 2^32 (ORI is no bitwise OR, C6). -/
def Obligations.ImmediatesAreAdded : Prop :=
  ∀ (s : State) (rs rt : RegIndex) (imm : BitVec 16),
    WritesRegister (.addi rs rt imm) s rowImm rt (wrapAdd (s.reg rs).toInt imm.toInt) ∧
    WritesRegister (.ori rs rt imm) s rowImm rt (wrapAdd (s.reg rs).toInt imm.toInt)

/-- LW (R241, R240, R62, R69): at any alignment in bounds it loads the four bytes at the effective address, most significant
first (D4, log 3; D5, log 4); nothing else changes but `pc`. -/
def Obligations.LoadWordReadsBigEndian : Prop :=
  ∀ (s : State) (rs rt : RegIndex) (imm : BitVec 16) (ea : Word), ea = wrapAdd (s.reg rs).toInt imm.toInt →
    ea.toNat + 3 ≤ config.dmemBytes - 1 →
    effectiveAddress rs imm s = ea ∧
    WritesRegister (.lw rs rt imm) s rowLw rt
      (s.byte ea.toNat ++ s.byte (ea.toNat + 1) ++ s.byte (ea.toNat + 2) ++ s.byte (ea.toNat + 3))

/-- SW (R242, R64): at any alignment in bounds it stores the word's four bytes at the effective address, most significant first
(D4, log 3; D5, log 4); every other byte, every slot and every register is unchanged. The premise is an invariant. `ctrl` is the
SW row, whose don't-care cell RegDst is 0 by the spec's own decision (D11, R138; log 22). -/
def Obligations.StoreWordWritesFourBytes : Prop :=
  ∀ (s : State) (rs rt : RegIndex) (imm : BitVec 16) (ea : Word), ea = wrapAdd (s.reg rs).toInt imm.toInt →
    Memory.wf s.dmem = true → ea.toNat + 3 ≤ config.dmemBytes - 1 →
    effectiveAddress rs imm s = ea ∧
    ∃ t, exec (.sw rs rt imm) s = .next t ∧
      t.byte ea.toNat = (s.reg rt).extractLsb' 24 8 ∧ t.byte (ea.toNat + 1) = (s.reg rt).extractLsb' 16 8 ∧
      t.byte (ea.toNat + 2) = (s.reg rt).extractLsb' 8 8 ∧ t.byte (ea.toNat + 3) = (s.reg rt).extractLsb' 0 8 ∧
      (∀ a, a < ea.toNat ∨ ea.toNat + 3 < a → t.byte a = s.byte a) ∧
      SameRegisters s t ∧ (∀ k, t.slot k = s.slot k) ∧ t.pc = s.pc + 4 ∧ EndsAs t rowSw .executed false

/-- LW and SW out of bounds (R65, R240): whatever the register, `rt = 0` included (D32, log 25), the cycle faults with the
effective address (D16, log 27). -/
def Obligations.OutOfBoundsAccessFaults : Prop :=
  ∀ (s : State) (rs rt : RegIndex) (imm : BitVec 16) (ea : Word), ea = wrapAdd (s.reg rs).toInt imm.toInt →
    config.dmemBytes - 4 < ea.toNat →
    exec (.lw rs rt imm) s = .fault (.outOfBoundsData ea) ∧ exec (.sw rs rt imm) s = .fault (.outOfBoundsData ea)

/-- BEQ (R261): taken exactly when the registers are equal, to its own address plus four times the signed immediate, modulo
2^32 (D15, log 8); nothing else changes. `ctrl` is the BEQ row, whose don't-care cell RegDst is 0 by the spec's own decision
(D11, R138; log 22). -/
def Obligations.BeqIsRelativeToItself : Prop :=
  ∀ (s : State) (rs rt : RegIndex) (imm : BitVec 16),
    Transfers (.beq rs rt imm) s rowBeq .executed
      (if s.reg rs = s.reg rt then BitVec.ofInt 32 (s.pc.toNat + 4 * imm.toInt) else s.pc + 4)

/-- J (R262) and JR (R263): J to the target index in the region of the following address; JR to the register's value times
`2^JR_SHIFT`, with no register written (C1, D13, log 6). -/
def Obligations.JumpsReachTheirTargets : Prop :=
  (∀ (s : State) (target : BitVec 26),
    Transfers (.j target) s rowZero .executed
      (BitVec.ofNat 32 (4 * target.toNat + (s.pc + 4).toNat / 2 ^ 28 * 2 ^ 28))) ∧
  ∀ (s : State) (rs rt rd : RegIndex) (shamt : BitVec 5),
    Transfers (.jr rs rt rd shamt) s rowR .executed (BitVec.ofNat 32 ((s.reg rs).toNat * 2 ^ config.jrShift))

/-- NOP (R281; D20, log 21) and EXIT (R282; log 10): nothing but `pc + 4`, EXIT with outcome `Halted`. -/
def Obligations.NopAndExitOnlyAdvance : Prop :=
  ∀ s : State, Transfers .nop s rowR .executed (s.pc + 4) ∧ Transfers .exit s rowZero .halted (s.pc + 4)

/-! ## Whole-machine rules -/

/-- R37: how each instruction advances `pc`, and that a cycle with outcome `Fault` leaves it. -/
def Obligations.EveryCycleSetsPcByTheTable : Prop :=
  (∀ (i : Instr) (s t : State), exec i s = .next t → t.pc = nextPc i s) ∧
  ∀ (s : State) (f : Fault), step s = .fault f → (coreTick config CoreIn.step s).1.pc = s.pc

/-- R43, R44, R75: no cycle writes instruction memory, and no instruction but SW changes data memory; along any run. -/
def Obligations.OnlyStoresChangeMemory : Prop :=
  (∀ s t : State, Reaches s t → t.imem = s.imem) ∧
  ∀ (i : Instr) (s t : State), exec i s = .next t → i.entry ≠ .sw → t.dmem = s.dmem

/-- R145, R149: a step at a word that decodes to an instruction is that instruction's meaning, with nothing added around it;
an encoded well-formed instruction in the slot of `pc` is run so. -/
def Obligations.StepRunsTheDecodedInstruction : Prop :=
  ∀ (s : State) (i : Instr), s.pc.toNat < config.imemBytes →
    (decode config (s.slot (s.pc.toNat / 4)) = .ok i → step s = exec i s) ∧
    (i.wf = true → s.slot (s.pc.toNat / 4) = encode config i → step s = exec i s)

/-- R301, R303: a step faults exactly in the four listed cases, each with its info. That bounds alone decide about a data
access, whatever its alignment, is decision D5 (log 4). -/
def Obligations.FaultsHaveExactlyFourCauses : Prop :=
  ∀ (s : State) (f : Fault), step s = .fault f ↔
    (config.imemBytes ≤ s.pc.toNat ∧ f = .outOfBoundsFetch s.pc) ∨
    (s.pc.toNat < config.imemBytes ∧ decode config (s.slot (s.pc.toNat / 4)) =
        .error (.unknownInstruction (s.slot (s.pc.toNat / 4))) ∧ f = .unknownInstruction (s.slot (s.pc.toNat / 4))) ∨
    (∃ rs rt rd shamt, fetchDecode config s = .ok (.sll rs rt rd shamt) ∧ f = .unsupportedOpcode 0 0) ∨
    ∃ rs rt imm, (fetchDecode config s = .ok (.lw rs rt imm) ∨ fetchDecode config s = .ok (.sw rs rt imm)) ∧
      config.dmemBytes - 4 < (effectiveAddress rs imm s).toNat ∧ f = .outOfBoundsData (effectiveAddress rs imm s)

/-- R302 with R12: no cycle is refused: every step ends in a next state or in one of the spec's faults. It
rests on the policy for misaligned accesses, decision D5 (log 4). -/
def Obligations.NoStepIsRefused : Prop := ∀ (s : State) (r : Refusal), step s ≠ .refused r

/-- R304: a faulting cycle commits nothing (D10, log 9): at the ports, the registers, `pc` and both memories after the clock edge
are those before it. That `ctrl` (log 12) and the model's own field `out` (log 11) stay too is the model's choice. -/
def Obligations.FaultingCycleCommitsNothing : Prop :=
  ∀ (s : State) (f : Fault), step s = .fault f → (coreTick config CoreIn.step s).1 = s

/-- R149: the meanings of files 41 to 46 are the algorithm of R145: for every state, a step and the generic cycle answer the
same. -/
def Obligations.StepRefinesTheGenericCycle : Prop := ∀ s : State, step s = (cycle config s).result

/-- R130 to R136, R147: for every valid choice of the parameters that performs misaligned accesses, one clock edge of the six
wired blocks with `step_en` does what the cycle of R145 does, and reports it at the output ports (ports: D17, log 23; `out` and `ctrl` after a
fault are the model's choice, log 11 and 12). -/
def Obligations.WiredBlocksRefineTheCycle : Prop :=
  ∀ c : Config, c.Valid → c.misaligned = .perform → ∀ s : State,
    coreTick c CoreIn.step s =
      ((cycle c s).stateAfter s, (cycle c s).ports (s.slot (s.pc.toNat / 4)))

/-- R131, R134 to R136: an edge with nothing asserted changes nothing and reports nothing, and an edge with `rst` does what
`reset()` does and reports nothing, whatever else is asserted, a load of instruction memory too (that `rst` comes first and
that the idle outputs are 0 is the model's choice, log 23; that `out` is cleared, log 11; reset: D8, log 13). -/
def Obligations.IdleAndResetEdges : Prop :=
  ∀ s : State, coreTick config CoreIn.idle s = (s, ⟨false, false, none, 0, false⟩) ∧
    (coreTick config CoreIn.reset s).1 = hostReset s ∧
    ∀ i : CoreIn, i.rst = true → coreTick config i s = (hostReset s, ⟨false, false, none, 0, false⟩)

/-- R12, R282, R314: a cycle's outcome is `Halted` exactly when it fetches HALT_WORD (D2, log 2); it commits only `pc + 4`, the
control signals (log 12) and the outcome, and nothing is latched: whatever the outcome ports held, the next cycle is the same. -/
def Obligations.HaltIsAnOutcomeNotAState : Prop :=
  (∀ s t : State, cycle config s = .halted t ↔
    s.pc.toNat < config.imemBytes ∧ s.slot (s.pc.toNat / 4) = config.haltWord ∧
      t = { s with pc := s.pc + 4, ctrl := rowZero, out := ⟨some .halted, false⟩ }) ∧
  ∀ (s : State) (o : Outputs) (g : ControlSignals), step { s with out := o, ctrl := g } = step s

/-! ## Invariants -/

/-- The state after construction meets the invariant (R330, R46). -/
def Obligations.ResetMeetsTheInvariant : Prop := State.reset.Inv config

/-- Every step from a state that meets the invariant gives one that meets it: the memories stay canonical and within their
capacity (R43, R44, R61), the hardwired register's slot stays 0 (R33), `pc` stays word-aligned (R38). -/
def Obligations.StepKeepsTheInvariant : Prop :=
  ∀ s t : State, s.Inv config → step s = .next t → t.Inv config

/-- The host's operations keep the invariant (R331, R332, R337). -/
def Obligations.HostOperationsKeepTheInvariant : Prop :=
  ∀ s : State, s.Inv config →
    (hostReset s).Inv config ∧
    (∀ ws t, loadWords config ws s = .ok t → t.Inv config) ∧
    (∀ name v t, writeRegister name v s = some t → t.Inv config)

/-! ## Memory -/

/-- R72 (a): a load after a store to the same address reads the word stored, for every register, base and displacement. That
both complete at every address in bounds (D16, log 27), misaligned ones too, is the spec's own decision D5 (log 4). -/
def Obligations.LoadAfterStoreSeesTheStore : Prop :=
  ∀ (s : State) (rs rt rd : RegIndex) (imm : BitVec 16), Memory.wf s.dmem = true →
    (effectiveAddress rs imm s).toNat + 3 ≤ config.dmemBytes - 1 →
    ∃ t u, exec (.sw rs rt imm) s = .next t ∧ exec (.lw rs rd imm) t = .next u ∧ RegisterIs s u rd (s.reg rt)

/-- R72 (b): of two stores to the same address the later one alone counts, as whole memories. That all three complete at every
address in bounds (D16, log 27), misaligned ones too, is the spec's own decision D5 (log 4). -/
def Obligations.LaterStoreWins : Prop :=
  ∀ (s : State) (rs rt rt' : RegIndex) (imm : BitVec 16), Memory.wf s.dmem = true →
    (effectiveAddress rs imm s).toNat + 3 ≤ config.dmemBytes - 1 →
    ∃ t u v, exec (.sw rs rt imm) s = .next t ∧ exec (.sw rs rt' imm) t = .next u ∧
      exec (.sw rs rt' imm) s = .next v ∧ u.dmem = v.dmem

/-- R62: where two word accesses overlap by three bytes, the byte order shows: a load one byte above a store reads the store's
low three bytes as its high three (D4, log 3). One of the two is misaligned: both are performed by decision D5 (log 4). -/
def Obligations.OverlappingAccessesAreBigEndian : Prop :=
  ∀ (s : State) (a v : Word), Memory.wf s.dmem = true → a.toNat + 4 ≤ config.dmemBytes - 1 →
    ∃ m, memWrite config a v s = .ok m ∧
      memRead config (a + 1) { s with dmem := m } = .ok (v.extractLsb' 0 24 ++ s.byte (a.toNat + 4))

/-- R62 to R64 for either byte order and any capacity: a word written is the word read back, and no byte outside it changes. -/
def Obligations.WordAccessRoundTrip : Prop :=
  ∀ (c : Config) (s : State) (a v : Word), c.misaligned = .perform → Memory.wf s.dmem = true →
    a.toNat + 4 ≤ c.dmemBytes →
    ∃ m, memWrite c a v s = .ok m ∧ Memory.wf m = true ∧ memRead c a { s with dmem := m } = .ok v ∧
      ∀ b, b < a.toNat ∨ a.toNat + 3 < b → sparseGet m b = s.byte b

/-- U1, R69: a misaligned data access, read or write, is refused exactly under the conservative policy, and then whatever its
bounds (the order of the two checks is the model's choice, log 4). -/
def Obligations.MisalignedRefusedOnlyByPolicy : Prop :=
  ∀ (c : Config) (a v : Word) (s : State),
    (memRead c a s = .error (.refused (.misalignedData a)) ↔ c.misaligned = .refuse ∧ a.toNat % 4 ≠ 0) ∧
    (memWrite c a v s = .error (.refused (.misalignedData a)) ↔ c.misaligned = .refuse ∧ a.toNat % 4 ≠ 0)

/-! ## Control signals, ALU dispatch and extension -/

/-- R137 to R140: the control table, row by row, and `unsupported` for every other opcode (don't-cares: D11, log 22; J and EXIT:
D12, log 12). -/
def Obligations.ControlRomIsTheTable : Prop :=
  (∀ op : Opcode, controlRom config op false =
    if op = 0x00 then some ⟨true, false, false, true, false, false, false, true, false⟩
    else if op = 0x23 then some ⟨false, true, true, true, true, false, false, false, false⟩
    else if op = 0x2B then some ⟨false, true, false, false, false, true, false, false, false⟩
    else if op = 0x04 then some ⟨false, false, false, false, false, false, true, false, true⟩
    else if op = 0x08 ∨ op = 0x0D then some ⟨false, true, false, true, false, false, false, false, false⟩
    else if op = 0x02 then some ⟨false, false, false, false, false, false, false, false, false⟩
    else none) ∧
  ∀ op : Opcode, controlRom config op true = some ⟨false, false, false, false, false, false, false, false, false⟩

/-- R141: the ALU dispatch: ADD for (0,0), SUBTRACT for (0,1), the funct table for (1,0), nothing for (1,1) (D33, log 29); SLL's
funct has no operation. -/
def Obligations.AluDispatchIsTheTable : Prop :=
  ∀ fn : Funct,
    aluDispatch config false false fn = some .add ∧ aluDispatch config false true fn = some .subtract ∧
    aluDispatch config true true fn = none ∧
    aluDispatch config true false fn =
      if fn = 0x20 then some .add else if fn = 0x22 then some .subtract else if fn = 0x24 then some .and
      else if fn = 0x25 then some .or else if fn = 0x27 then some .nor else if fn = 0x2A then some .setLessThan
      else if fn = 0x02 then some .shiftRightLogical else if fn = 0x03 then some .shiftRightArithmetic else none

/-- R10: `sext_32` keeps the low 16 bits and fills bits 31..16 with bit 15; `zext_32` fills them with 0. -/
def Obligations.ExtensionsFillTheUpperBits : Prop :=
  ∀ v : BitVec 16,
    (sext32 v).extractLsb' 0 16 = v ∧ (zext32 v).extractLsb' 0 16 = v ∧
    ∀ k, 16 ≤ k → k < 32 → (sext32 v).getLsbD k = v.getLsbD 15 ∧ (zext32 v).getLsbD k = false

/-- R263 for every value of the parameter JR_SHIFT (C1): the generic cycle at JR's word sets `pc` to the register shifted by
it and changes nothing else but the cycle's outputs. -/
def Obligations.JrFollowsTheShiftParameter : Prop :=
  ∀ (k : Nat) (s : State) (rs rt rd : RegIndex) (shamt : BitVec 5),
    cycleOn { config with jrShift := k } (encode config (.jr rs rt rd shamt)) s =
      .executed { s with
        pc := s.reg rs <<< k, ctrl := rowR
        out := ⟨some .executed, rt != 0 || rd != 0 || shamt != 0⟩ }

/-! ## The host -/

/-- R46, R330: the state after construction: `pc` 0, every data byte 0, every slot the no-op, `ctrl` all 0, every register
REG_RESET, which is the spec's own decision D6 (log 5), and x[0] 0; the first step runs the no-op of slot 0. -/
def Obligations.ConstructionState : Prop :=
  construct.pc = 0 ∧ (∀ a, construct.byte a = 0) ∧ (∀ k, construct.slot k = 0) ∧ construct.ctrl = rowZero ∧
  (∀ r : RegIndex, construct.reg r = if r = 0 then 0 else config.regReset) ∧ step construct = exec .nop construct

/-- R332: `reset()` zero-fills data memory, sets `pc` to 0 and every register to REG_RESET, and keeps the program (D8, log 13). -/
def Obligations.ResetKeepsTheProgram : Prop :=
  ∀ s : State, (hostReset s).pc = 0 ∧ (∀ a, (hostReset s).byte a = 0) ∧ (hostReset s).imem = s.imem ∧
    ∀ r : RegIndex, (hostReset s).reg r = if r = 0 then 0 else config.regReset

/-- R331: a load that fits puts the program in the slots from 0 on and no-ops above, sets `pc` to 0 and changes nothing else
(D9, log 13); one that does not fit fails. -/
def Obligations.LoadFillsInstructionMemory : Prop :=
  ∀ (ws : List Word) (s : State),
    (ws.length ≤ 250 → ∃ t, loadWords config ws s = .ok t ∧ t.pc = 0 ∧ (∀ k, t.slot k = ws.getD k 0) ∧
      InstrMemory.wf t.imem = true ∧ t.regs = s.regs ∧ t.dmem = s.dmem ∧ t.ctrl = s.ctrl) ∧
    (250 < ws.length → loadWords config ws s = .error (.outOfBounds ws.length))

/-- R333: `step()` performs exactly one cycle of R145 and returns false for `Executed`, true for `Halted`, the error for a
fault. -/
def Obligations.StepReturnsWhetherHalted : Prop :=
  ∀ s : State, hostStep s =
    match cycle config s with
    | .executed t => .ok (false, t)
    | .halted t => .ok (true, t)
    | .stopped e => .error e

/-- R334, R335: a run ends normally exactly when, with the stop signal down at every boundary before, some number of cycles
executed and the next one halted; with the signal up at a boundary it returns there without a cycle (D26, log 24). -/
def Obligations.RunEndsNormallyByHalt : Prop :=
  (∀ (stops : List Bool) (s t : State), run stops s = .halted t ↔
    ∃ k u, k < stops.length ∧ (∀ j ≤ k, stops[j]? = some false) ∧ ExecutedFor k s u ∧ cycle config u = .halted t) ∧
  ∀ (stops : List Bool) (s t : State), run stops s = .cancelled t ↔
    ∃ k, stops[k]? = some true ∧ (∀ j < k, stops[j]? = some false) ∧ ExecutedFor k s t

/-- R107, R108, R109: for every three-register mnemonic and any spelling of its registers (symbolic name or index), the
assembled word is the encoding of the instruction with `rd, rs, rt` in that order and shamt 0. -/
def Obligations.AssemblerComposesThreeRegisterForms : Prop :=
  ∀ (e : Entry) (a b d : List Char) (rd rs rt : RegIndex), patternOf e = .rdRsRt →
    parseRegister a = some rd → parseRegister b = some rs → parseRegister d = some rt →
    ∃ i, rInstr e rs rt rd 0 = some i ∧ assembleLine config (lineOf e [a, b, d]) = .ok (encode config i) ∧
      decodeMnemonic config (lineOf e [a, b, d]) = .ok i

/-- R110: every natural number is read back from its digits: bare decimal, and with the prefixes of hexadecimal, binary and
decimal in either case, each also with a leading minus sign. -/
def Obligations.LiteralsAreReadInEveryBase : Prop :=
  ∀ n : Nat,
    (∀ t ∈ [Nat.toDigits 10 n, '0' :: 'x' :: Nat.toDigits 16 n, '0' :: 'X' :: Nat.toDigits 16 n,
        '0' :: 'b' :: Nat.toDigits 2 n, '0' :: 'B' :: Nat.toDigits 2 n, '0' :: 'd' :: Nat.toDigits 10 n,
        '0' :: 'D' :: Nat.toDigits 10 n],
      parseLiteral t = some (n : Int) ∧ parseLiteral ('-' :: t) = some (-(n : Int)))
end

