-- ==== Sys2Proof/Laws/Decode.lean ====
section
/-!
SUPPORT. The fields of a composed word, field by field; a word as its fields; and everything the catalog's lookup can answer,
in both directions.
-/

namespace Sys2Proof

section RWord
variable (c : Config) (rs rt rd : RegIndex) (shamt : BitVec 5) (fn : Funct)

@[simp] theorem opcodeOf_rWord : opcodeOf (rWord c rs rt rd shamt fn) = c.opRtype := by
  unfold opcodeOf rWord; ext i hi; simp; grind
@[simp] theorem rsOf_rWord : rsOf (rWord c rs rt rd shamt fn) = rs := by
  unfold rsOf rWord; ext i hi; simp; grind
@[simp] theorem rtOf_rWord : rtOf (rWord c rs rt rd shamt fn) = rt := by
  unfold rtOf rWord; ext i hi; simp; grind
@[simp] theorem rdOf_rWord : rdOf (rWord c rs rt rd shamt fn) = rd := by
  unfold rdOf rWord; ext i hi; simp; grind
@[simp] theorem shamtOf_rWord : shamtOf (rWord c rs rt rd shamt fn) = shamt := by
  unfold shamtOf rWord; ext i hi; simp; grind
@[simp] theorem functOf_rWord : functOf (rWord c rs rt rd shamt fn) = fn := by
  unfold functOf rWord; ext i hi; simp; grind

end RWord

section IWord
variable (op : Opcode) (rs rt : RegIndex) (imm : BitVec 16)

@[simp] theorem opcodeOf_iWord : opcodeOf (iWord op rs rt imm) = op := by
  unfold opcodeOf iWord; ext i hi; simp; grind
@[simp] theorem rsOf_iWord : rsOf (iWord op rs rt imm) = rs := by
  unfold rsOf iWord; ext i hi; simp; grind
@[simp] theorem rtOf_iWord : rtOf (iWord op rs rt imm) = rt := by
  unfold rtOf iWord; ext i hi; simp; grind
@[simp] theorem immOf_iWord : immOf (iWord op rs rt imm) = imm := by
  unfold immOf iWord; ext i hi; simp; grind

end IWord

@[simp] theorem opcodeOf_jWord (op : Opcode) (target : BitVec 26) : opcodeOf (jWord op target) = op := by
  unfold opcodeOf jWord; ext i hi; simp; grind
@[simp] theorem targetOf_jWord (op : Opcode) (target : BitVec 26) : targetOf (jWord op target) = target := by
  unfold targetOf jWord; ext i hi; simp; grind

/-- A word is its R-format fields (R92, R94). -/
theorem word_eq_rFields (w : Word) :
    (opcodeOf w ++ rsOf w ++ rtOf w ++ rdOf w ++ shamtOf w ++ functOf w : Word) = w := by
  unfold opcodeOf rsOf rtOf rdOf shamtOf functOf; ext i hi; simp; grind

/-- A word is its I-format fields (R92, R94). -/
theorem word_eq_iFields (w : Word) : (opcodeOf w ++ rsOf w ++ rtOf w ++ immOf w : Word) = w := by
  unfold opcodeOf rsOf rtOf immOf; ext i hi; simp; grind

/-- A word is its J-format fields (R92, R94). -/
theorem word_eq_jFields (w : Word) : (opcodeOf w ++ targetOf w : Word) = w := by
  unfold opcodeOf targetOf; ext i hi; simp; grind

/-! ## The catalog's lookup -/

/-- The opcode of an entry's words, the two whole words apart (R100). -/
def keyOpcode (c : Config) : Entry → Opcode
  | .j => c.opJ
  | .beq => c.opBeq
  | .addi => c.opAddi
  | .ori => c.opOri
  | .lw => c.opLw
  | .sw => c.opSw
  | .nop | .exit | .sll | .srl | .sra | .jr | .add | .sub | .and | .or | .nor | .slt => c.opRtype

/-- The funct of an R-format entry's words, NOP's whole word apart (R100). -/
def keyFunct (c : Config) : Entry → Option Funct
  | .sll => some c.fnSll
  | .srl => some c.fnSrl
  | .sra => some c.fnSra
  | .jr => some c.fnJr
  | .add => some c.fnAdd
  | .sub => some c.fnSub
  | .and => some c.fnAnd
  | .or => some c.fnOr
  | .nor => some c.fnNor
  | .slt => some c.fnSlt
  | .nop | .exit | .j | .beq | .addi | .ori | .lw | .sw => none

theorem lookupFunct_some {c : Config} {fn : Funct} {e : Entry} (h : lookupFunct c fn = some e) :
    keyFunct c e = some fn := by
  unfold lookupFunct at h
  split_ifs at h <;> (injection h with h'; subst h'; simp only [keyFunct, *])

theorem lookup_some {c : Config} {op : Opcode} {fn : Funct} {e : Entry} (h : lookup c op fn = some e) :
    op = keyOpcode c e ∧ (∀ f, keyFunct c e = some f → fn = f) ∧ e ≠ .nop ∧ e ≠ .exit := by
  by_cases hr : op = c.opRtype
  · rw [lookup, if_pos hr] at h
    have hk := lookupFunct_some h
    subst hr
    refine ⟨?_, fun f hf => by rw [hk] at hf; injection hf, ?_, ?_⟩
    · cases e <;> first | rfl | cases hk
    · rintro rfl; cases hk
    · rintro rfl; cases hk
  · rw [lookup, if_neg hr] at h
    split_ifs at h <;> (injection h with h'; subst h'; simp [keyOpcode, keyFunct, *])

theorem lookupFunct_key {c : Config} (hc : c.functs.Nodup) {e : Entry} {fn : Funct} (hf : keyFunct c e = some fn) :
    lookupFunct c fn = some e := by
  simp only [Config.functs, List.nodup_cons, List.mem_cons, List.not_mem_nil, or_false, not_or] at hc
  cases e <;> first | (injection hf with hf; subst hf; simp [lookupFunct, hc, Ne.symm]) | contradiction

theorem lookup_key {c : Config} (hc : c.Valid) {e : Entry} {fn : Funct} (hn : e ≠ .nop) (hx : e ≠ .exit)
    (hf : ∀ f, keyFunct c e = some f → fn = f) : lookup c (keyOpcode c e) fn = some e := by
  obtain ⟨-, -, -, -, -, -, -, ho, hfn, -, -⟩ := hc
  simp only [Config.opcodes, List.nodup_cons, List.mem_cons, List.not_mem_nil, or_false, not_or] at ho
  cases e <;> first
    | exact absurd rfl hn
    | exact absurd rfl hx
    | (rw [hf _ rfl]; exact (if_pos rfl).trans (lookupFunct_key hfn rfl))
    | (simp only [keyOpcode, lookup]; simp [ho, eq_comm])

/-- Everything a known word can be (R97): one of the two whole words, or neither, with the key of its entry. -/
theorem entryOf_cases {c : Config} {w : Word} {e : Entry} (h : entryOf c w = some e) :
    (w = 0 ∧ e = .nop) ∨ (w ≠ 0 ∧ w = c.haltWord ∧ e = .exit) ∨
    (w ≠ 0 ∧ w ≠ c.haltWord ∧ e ≠ .nop ∧ e ≠ .exit ∧ opcodeOf w = keyOpcode c e ∧
      ∀ f, keyFunct c e = some f → functOf w = f) := by
  unfold entryOf at h
  split_ifs at h with h0 h1
  · cases h; exact .inl ⟨h0, rfl⟩
  · cases h; exact .inr (.inl ⟨h0, h1, rfl⟩)
  · obtain ⟨a, b, n, x⟩ := lookup_some h
    exact .inr (.inr ⟨h0, h1, n, x, a, b⟩)

/-- The halt word carries no catalog opcode (R5). -/
theorem ne_haltWord_of_opcode {c : Config} (hc : c.Valid) {w : Word} {e : Entry} (h : opcodeOf w = keyOpcode c e) :
    w ≠ c.haltWord := by
  rintro rfl
  apply hc.2.2.2.2.2.2.1
  change opcodeOf c.haltWord ∈ _
  rw [h]; cases e <;> simp [keyOpcode, Config.opcodes]

/-- A word other than zero with the key of an entry is known and is that entry's. -/
theorem entryOf_key {c : Config} (hc : c.Valid) {w : Word} {e : Entry} (hn : e ≠ .nop) (hx : e ≠ .exit) (h0 : w ≠ 0)
    (ho : opcodeOf w = keyOpcode c e) (hf : ∀ f, keyFunct c e = some f → functOf w = f) : entryOf c w = some e := by
  rw [entryOf, if_neg h0, if_neg (ne_haltWord_of_opcode hc ho), ho]
  exact lookup_key hc hn hx hf

end Sys2Proof
end

