-- ==== Sys2Proof/Laws/Datapath.lean ====
section
/-!
SUPPORT. What the control ROM, the ALU dispatch and the validity flag answer for each entry of the catalog, for every valid
choice of the parameters, and one `step_en` edge of the wired blocks with its idle inputs removed.
-/

namespace Sys2Proof.Machine

/-- The ROM row of an entry (R137, R139). -/
def rowOf : Entry → ControlSignals
  | .lw => rowLw
  | .sw => rowSw
  | .beq => rowBeq
  | .addi | .ori => rowImm
  | .j | .exit => rowZero
  | .nop | .sll | .srl | .sra | .jr | .add | .sub | .and | .or | .nor | .slt => rowR

/-- The ALU operation of an R-format entry (R141). -/
def operationOf : Entry → Option AluOp
  | .add => some .add
  | .sub => some .subtract
  | .and => some .and
  | .or => some .or
  | .nor => some .nor
  | .slt => some .setLessThan
  | .srl => some .shiftRightLogical
  | .sra => some .shiftRightArithmetic
  | .nop | .exit | .sll | .jr | .j | .beq | .addi | .ori | .lw | .sw => none

theorem controlRom_key {c : Config} (hc : c.Valid) {e : Entry} (hx : e ≠ .exit) :
    controlRom c (keyOpcode c e) false = some (rowOf e) := by
  obtain ⟨-, -, -, -, -, -, -, ho, -, -, -⟩ := hc
  simp only [Config.opcodes, List.nodup_cons, List.mem_cons, List.not_mem_nil, or_false, not_or] at ho
  cases e <;> first | exact absurd rfl hx | simp [controlRom, keyOpcode, ho, Ne.symm, rowOf]

theorem functOperation_key {c : Config} (hc : c.Valid) {e : Entry} {fn : Funct} (hf : keyFunct c e = some fn) :
    functOperation c fn = operationOf e := by
  obtain ⟨-, -, -, -, -, -, -, -, hfn, -, -⟩ := hc
  simp only [Config.functs, List.nodup_cons, List.mem_cons, List.not_mem_nil, or_false, not_or] at hfn
  cases e <;> first
    | (injection hf with hf; subst hf; simp [functOperation, operationOf, hfn, Ne.symm])
    | contradiction

theorem funct_jr_key {c : Config} (hc : c.Valid) {e : Entry} {fn : Funct} (hf : keyFunct c e = some fn) :
    fn = c.fnJr ↔ e = .jr := by
  obtain ⟨-, -, -, -, -, -, -, -, hfn, -, -⟩ := hc
  simp only [Config.functs, List.nodup_cons, List.mem_cons, List.not_mem_nil, or_false, not_or] at hfn
  cases e <;> first | (injection hf with hf; subst hf; simp [hfn, Ne.symm]) | contradiction

/-- The decoder's outputs for a word of entry `e` that is neither whole word. -/
theorem decoderOut_key {c : Config} {w : Word} {e : Entry} (he : entryOf c w = some e) (ho : opcodeOf w = keyOpcode c e) :
    decoderOut c w =
      { entry := some e, format := e.format, type := some e.type, opcode := keyOpcode c e, rs := rsOf w, rt := rtOf w,
        rd := rdOf w, shamt := shamtOf w, funct := functOf w, imm16 := immOf w, target := targetOf w,
        validity := validityOf c w } := by
  simp only [decoderOut, he, ho]; rfl

/-- The edge of `step()` (R134): nothing asserted but `step_en`. -/
theorem coreTick_step (c : Config) (s : State) (w : Word) (hw : w = s.slot (s.pc.toNat / 4)) :
    coreTick c CoreIn.step s =
      let d := decoderOut c w
      let rom := controlRom c d.opcode (d.entry == some .exit)
      let sig := rom.getD rowZero
      let rd1 := readRegs s.regs d.rs
      let rd2 := readRegs s.regs d.rt
      let res := datapathAlu c d sig rd1 rd2
      let addr := res.getD 0
      let fault := datapathFault c d s.pc w rom res
      let commits := fault.isNone
      let pv := d.validity == .partiallyValid
      let ended : CycleEnd := if d.entry = some .exit then .halted else .executed
      ({ regs :=
          if commits && sig.regWrite && !bypassesAlu d then
            writeRegs s.regs (if d.format = .r then d.rd else d.rt) (if sig.memToReg then dRdata c s.dmem addr else addr)
          else s.regs
         pc := if commits then nextAddress c d sig s.pc rd1 addr else s.pc
         imem := s.imem
         dmem := if commits && sig.memWrite then writeWord c.byteOrder s.dmem addr.toNat rd2 else s.dmem
         ctrl := if commits then sig else s.ctrl
         out := if commits then ⟨some ended, pv⟩ else s.out },
       { executed := commits && ended == .executed
         halted := commits && ended == .halted
         fault := fault.map Prod.fst
         faultInfo := (fault.map Prod.snd).getD 0
         partiallyValid := commits && pv }) := by
  subst hw
  unfold coreTick
  simp only [CoreIn.step, CoreIn.idle, registerFileTick, programCounterTick, instrMemoryTick, dataMemoryTick,
    Bool.not_false, Bool.and_true, Bool.true_and, Bool.false_and, Bool.false_eq_true, if_false, if_true, Bool.or_false,
    Bool.not_true, Bool.and_false]
  rfl

end Sys2Proof.Machine
end

