-- ==== Sys2Proof/Laws/HostOps.lean ====
section
/-!
SUPPORT. What a loaded program makes of instruction memory: its canonical form, its bound, and what each slot reads as.
-/

namespace Sys2Proof.Machine

theorem imemFrom_all_gt (ws : List Word) : ∀ k j, j < k → (imemFrom k ws).all (fun p => decide (j < p.1)) = true := by
  induction ws with
  | nil => intros; rfl
  | cons w ws ih =>
    intro k j h
    unfold imemFrom
    split_ifs
    · exact ih _ _ (by omega)
    · rw [List.all_cons, ih _ _ (by omega), Bool.and_true, decide_eq_true_eq]; exact h

theorem imemFrom_wf (ws : List Word) : ∀ k, InstrMemory.wf (imemFrom k ws) = true := by
  induction ws with
  | nil => intros; rfl
  | cons w ws ih =>
    intro k
    unfold imemFrom
    split_ifs with h
    · exact ih _
    · have := ih (k + 1)
      unfold InstrMemory.wf at this ⊢
      simp only [sparseWf, this, imemFrom_all_gt ws (k + 1) k (by omega)]
      simpa using h

theorem imemFrom_keysBelow (ws : List Word) : ∀ k n, k + ws.length ≤ n → keysBelow n (imemFrom k ws) = true := by
  induction ws with
  | nil => intros; rfl
  | cons w ws ih =>
    intro k n h
    rw [List.length_cons] at h
    unfold imemFrom
    split_ifs
    · exact ih _ _ (by omega)
    · have := ih (k + 1) n (by omega)
      unfold keysBelow at *
      rw [List.all_cons, this, Bool.and_true, decide_eq_true_eq]; omega

/-- A slot of a loaded program: its word, and the no-op below its first slot and above its last (R331). -/
theorem sparseGet_imemFrom (ws : List Word) :
    ∀ k a, sparseGet (imemFrom k ws) a = if a < k then 0 else ws.getD (a - k) 0 := by
  induction ws with
  | nil => intro k a; simp [imemFrom, sparseGet, unlisted]
  | cons w ws ih =>
    intro k a
    unfold imemFrom
    split_ifs with h1 h2 h2
    · rw [ih, if_pos (by omega)]
    · rw [ih]; split_ifs
      · have : a = k := by omega
        subst this; simp [h1, unlisted]
      · have : a - k = (a - (k + 1)) + 1 := by omega
        rw [this]; simp
    · rw [sparseGet, if_neg (by omega), ih, if_pos (by omega)]
    · rw [sparseGet]; split_ifs with h3
      · subst h3; simp
      · rw [ih, if_neg (by omega)]
        have : a - k = (a - (k + 1)) + 1 := by omega
        rw [this]; simp

end Sys2Proof.Machine
end

