-- ==== Sys2Proof/Laws/Memory.lean ====
section
/-!
SUPPORT. The laws of sparse memory: read after write, the canonical form is kept by every operation and makes equal memories
equal data, and what a word store changes.
-/

namespace Sys2Proof.Machine

variable {n : Nat}

theorem sparseGet_of_all_gt {a k : Nat} (hak : a ≤ k) {m : List (Nat × BitVec n)}
    (h : m.all (fun p => decide (k < p.1)) = true) : sparseGet m a = unlisted := by
  induction m with
  | nil => rfl
  | cons p rest ih =>
    obtain ⟨j, w⟩ := p
    simp only [List.all_cons, Bool.and_eq_true, decide_eq_true_eq] at h
    have : j ≠ a := by omega
    simp [sparseGet, this, ih h.2]

/-- A read after a write to a canonical memory. -/
theorem sparseGet_sparseSet {m : List (Nat × BitVec n)} (hm : sparseWf m = true) (a b : Nat) (v : BitVec n) :
    sparseGet (sparseSet m a v) b = if b = a then v else sparseGet m b := by
  induction m with
  | nil => simp only [sparseSet]; split_ifs <;> grind [sparseGet]
  | cons p rest ih =>
    obtain ⟨k, w⟩ := p
    simp only [sparseWf, Bool.and_eq_true] at hm
    obtain ⟨⟨-, hgt⟩, hrest⟩ := hm
    have ih := ih hrest
    have hnone : sparseGet rest k = unlisted := sparseGet_of_all_gt le_rfl hgt
    have hbelow : a < k → sparseGet rest a = unlisted := fun h => sparseGet_of_all_gt h.le hgt
    simp only [sparseSet]
    split_ifs <;> grind [sparseGet]

theorem all_gt_sparseSet {m : List (Nat × BitVec n)} {k a : Nat} {v : BitVec n} (ha : k < a)
    (h : m.all (fun p => decide (k < p.1)) = true) :
    (sparseSet m a v).all (fun p => decide (k < p.1)) = true := by
  induction m with
  | nil => by_cases hv : v = unlisted <;> simp [sparseSet, hv, ha]
  | cons p rest ih =>
    obtain ⟨j, w⟩ := p
    rw [List.all_cons, Bool.and_eq_true] at h
    have ih := ih h.2
    simp only [sparseSet]
    split_ifs <;> simp only [List.all_cons, Bool.and_eq_true, decide_eq_true_eq] at h ⊢ <;> grind

/-- Every write keeps the canonical form. -/
theorem sparseSet_wf {m : List (Nat × BitVec n)} (hm : sparseWf m = true) (a : Nat) (v : BitVec n) :
    sparseWf (sparseSet m a v) = true := by
  induction m with
  | nil => by_cases hv : v = unlisted <;> simp [sparseSet, sparseWf, hv]
  | cons p rest ih =>
    obtain ⟨k, w⟩ := p
    simp only [sparseWf, Bool.and_eq_true] at hm
    obtain ⟨⟨hw, hgt⟩, hrest⟩ := hm
    have ih := ih hrest
    have hgt' : a < k → rest.all (fun p => decide (a < p.1)) = true := by
      intro h
      simp only [List.all_eq_true, decide_eq_true_eq] at hgt ⊢
      exact fun p hp => h.trans (hgt p hp)
    simp only [sparseSet]
    split_ifs with h1 h2 h3 h4
    · simp [sparseWf, hw, hgt, hrest]
    · simp [sparseWf, hw, hgt, hrest, h1, hgt' h1, h2]
    · exact hrest
    · subst h3; simp [sparseWf, hgt, hrest, h4]
    · have hka : k < a := by omega
      simp [sparseWf, hw, all_gt_sparseSet hka hgt, ih]

/-- A write below the bound lists nothing at or above it. -/
theorem keysBelow_sparseSet {m : List (Nat × BitVec n)} {bound a : Nat} (ha : a < bound)
    (h : keysBelow bound m = true) (v : BitVec n) : keysBelow bound (sparseSet m a v) = true := by
  induction m with
  | nil => by_cases hv : v = unlisted <;> simp [sparseSet, keysBelow, hv, ha]
  | cons p rest ih =>
    obtain ⟨j, w⟩ := p
    unfold keysBelow at h ih ⊢
    rw [List.all_cons, Bool.and_eq_true] at h
    have ih := ih h.2
    simp only [sparseSet]
    split_ifs <;> simp only [List.all_cons, Bool.and_eq_true, decide_eq_true_eq] at h ⊢ <;> grind

/-- Canonical memories with the same reads are the same data. -/
theorem sparse_ext {m m' : List (Nat × BitVec n)} (hm : sparseWf m = true) (hm' : sparseWf m' = true)
    (h : ∀ a, sparseGet m a = sparseGet m' a) : m = m' := by
  induction m generalizing m' with
  | nil =>
    cases m' with
    | nil => rfl
    | cons p rest =>
      obtain ⟨k, v⟩ := p
      have := h k
      simp_all [sparseWf, sparseGet]
  | cons p rest ih =>
    obtain ⟨k, v⟩ := p
    cases m' with
    | nil =>
      have := h k
      simp_all [sparseWf, sparseGet]
    | cons p' rest' =>
      obtain ⟨k', v'⟩ := p'
      simp only [sparseWf, Bool.and_eq_true, bne_iff_ne, ne_eq] at hm hm'
      have hk : k = k' := by
        rcases Nat.lt_trichotomy k k' with hlt | heq | hgt
        · have hn : sparseGet rest' k = unlisted := sparseGet_of_all_gt hlt.le hm'.1.2
          have := h k
          simp only [sparseGet, if_neg hlt.ne', hn, if_true] at this
          exact absurd this hm.1.1
        · exact heq
        · have hn : sparseGet rest k' = unlisted := sparseGet_of_all_gt hgt.le hm.1.2
          have := h k'
          simp only [sparseGet, if_neg hgt.ne', hn, if_true] at this
          exact absurd this.symm hm'.1.1
      subst hk
      have hv : v = v' := by simpa [sparseGet] using h k
      subst hv
      have : rest = rest' := by
        apply ih hm.2 hm'.2
        intro a
        by_cases ha : k = a
        · subst ha
          rw [sparseGet_of_all_gt le_rfl hm.1.2, sparseGet_of_all_gt le_rfl hm'.1.2]
        · simpa [sparseGet, ha] using h a
      rw [this]

/-! ## Words -/

/-- The bytes of a word, put together again, are the word, in either byte order. -/
theorem bytesWord_wordBytes (o : ByteOrder) (v : Word) :
    bytesWord o (wordBytes o v).1 (wordBytes o v).2.1 (wordBytes o v).2.2.1 (wordBytes o v).2.2.2 = v := by
  cases o <;> simp only [bytesWord, wordBytes] <;> ext i hi <;> simp <;> grind

theorem writeWord_wf {m : Memory} (hm : Memory.wf m = true) (o : ByteOrder) (a : Nat) (v : Word) :
    Memory.wf (writeWord o m a v) = true :=
  sparseSet_wf (sparseSet_wf (sparseSet_wf (sparseSet_wf hm _ _) _ _) _ _) _ _

theorem writeWord_keysBelow {m : Memory} {bound a : Nat} (ha : a + 4 ≤ bound) (h : keysBelow bound m = true)
    (o : ByteOrder) (v : Word) : keysBelow bound (writeWord o m a v) = true := by
  unfold writeWord
  refine keysBelow_sparseSet (by omega) ?_ _
  refine keysBelow_sparseSet (by omega) ?_ _
  refine keysBelow_sparseSet (by omega) ?_ _
  exact keysBelow_sparseSet (by omega) h _

/-- The bytes after a word store: the four bytes of the word at `a .. a+3`, every other byte as before. -/
theorem sparseGet_writeWord {m : Memory} (hm : Memory.wf m = true) (o : ByteOrder) (a b : Nat) (v : Word) :
    sparseGet (writeWord o m a v) b =
      if b = a + 3 then (wordBytes o v).2.2.2
      else if b = a + 2 then (wordBytes o v).2.2.1
      else if b = a + 1 then (wordBytes o v).2.1
      else if b = a then (wordBytes o v).1
      else sparseGet m b := by
  have h0 : sparseWf m = true := hm
  simp only [writeWord]
  rw [sparseGet_sparseSet (sparseSet_wf (sparseSet_wf (sparseSet_wf h0 _ _) _ _) _ _),
    sparseGet_sparseSet (sparseSet_wf (sparseSet_wf h0 _ _) _ _), sparseGet_sparseSet (sparseSet_wf h0 _ _),
    sparseGet_sparseSet h0]

/-- A load after a store to the same address gives the word stored. -/
theorem readWord_writeWord {m : Memory} (hm : Memory.wf m = true) (o : ByteOrder) (a : Nat) (v : Word) :
    readWord o (writeWord o m a v) a = v := by
  simp only [readWord, sparseGet_writeWord hm]
  simpa using bytesWord_wordBytes o v

end Sys2Proof.Machine
end

