-- ==== Sys2Proof/Laws/State.lean ====
section
/-!
SUPPORT. One lemma per field per state update, and what a register read sees after each update, so that later proofs unfold
no record update.
-/

namespace Sys2Proof.Machine

section SetReg
variable (s : State) (r : RegIndex) (v : Word)

@[simp] theorem setReg_regs : (s.setReg r v).regs = writeRegs s.regs r v := rfl
@[simp] theorem setReg_pc : (s.setReg r v).pc = s.pc := rfl
@[simp] theorem setReg_imem : (s.setReg r v).imem = s.imem := rfl
@[simp] theorem setReg_dmem : (s.setReg r v).dmem = s.dmem := rfl
@[simp] theorem setReg_ctrl : (s.setReg r v).ctrl = s.ctrl := rfl
@[simp] theorem setReg_out : (s.setReg r v).out = s.out := rfl
@[simp] theorem setReg_byte (a : Nat) : (s.setReg r v).byte a = s.byte a := rfl
@[simp] theorem setReg_slot (k : Nat) : (s.setReg r v).slot k = s.slot k := rfl

end SetReg

section Commit
variable (s : State) (row : ControlSignals) (e : CycleEnd) (pv : Bool) (next : Word)

@[simp] theorem commit_regs : (s.commit row e pv next).regs = s.regs := rfl
@[simp] theorem commit_pc : (s.commit row e pv next).pc = next := rfl
@[simp] theorem commit_imem : (s.commit row e pv next).imem = s.imem := rfl
@[simp] theorem commit_dmem : (s.commit row e pv next).dmem = s.dmem := rfl
@[simp] theorem commit_ctrl : (s.commit row e pv next).ctrl = row := rfl
@[simp] theorem commit_out : (s.commit row e pv next).out = ⟨some e, pv⟩ := rfl
@[simp] theorem commit_reg (r : RegIndex) : (s.commit row e pv next).reg r = s.reg r := rfl
@[simp] theorem commit_byte (a : Nat) : (s.commit row e pv next).byte a = s.byte a := rfl
@[simp] theorem commit_slot (k : Nat) : (s.commit row e pv next).slot k = s.slot k := rfl

end Commit

section SetDmem
variable (s : State) (m : Memory)

@[simp] theorem setDmem_reg (r : RegIndex) : ({ s with dmem := m } : State).reg r = s.reg r := rfl
@[simp] theorem setDmem_slot (k : Nat) : ({ s with dmem := m } : State).slot k = s.slot k := rfl
@[simp] theorem setDmem_byte (a : Nat) : ({ s with dmem := m } : State).byte a = sparseGet m a := rfl

end SetDmem

/-! ## The register file -/

@[simp] theorem readRegs_zero (x : Vector Word 32) : readRegs x 0#5 = 0#32 := rfl

@[simp] theorem writeRegs_zero (x : Vector Word 32) (v : Word) : writeRegs x 0#5 v = x := rfl

theorem readRegs_of_ne {x : Vector Word 32} {r : RegIndex} (h : r ≠ 0) : readRegs x r = x[r.toNat]'r.isLt := by
  rw [readRegs, if_neg h]; rfl

theorem writeRegs_of_ne {x : Vector Word 32} {r : RegIndex} (h : r ≠ 0) (v : Word) :
    writeRegs x r v = x.set r.toNat v r.isLt := by
  rw [writeRegs, if_neg h]

/-- A read after a write: the value written, unless the register is the hardwired one; every other register as before. -/
theorem readRegs_writeRegs (x : Vector Word 32) (r q : RegIndex) (v : Word) :
    readRegs (writeRegs x r v) q = if q = r ∧ r ≠ 0 then v else readRegs x q := by
  by_cases hr : r = 0
  · subst hr; rw [if_neg (by simp)]; rfl
  by_cases hq : q = 0
  · subst hq; rw [if_neg (fun h => h.2 h.1.symm)]; rfl
  have hiff : (r.toNat = q.toNat) ↔ (q = r) := by rw [eq_comm, BitVec.toNat_inj]
  rw [readRegs_of_ne hq, readRegs_of_ne hq, writeRegs_of_ne hr, Vector.getElem_set]
  by_cases h : q = r
  · rw [if_pos (hiff.2 h), if_pos ⟨h, hr⟩]
  · rw [if_neg (mt hiff.1 h), if_neg (fun hh => h hh.1)]

@[simp] theorem reg_zero (s : State) : s.reg 0#5 = 0#32 := rfl

@[simp] theorem setReg_zero (s : State) (v : Word) : s.setReg 0#5 v = s := rfl

theorem reg_setReg (s : State) (r q : RegIndex) (v : Word) :
    (s.setReg r v).reg q = if q = r ∧ r ≠ 0 then v else s.reg q :=
  readRegs_writeRegs s.regs r q v

theorem reg_setReg_ne (s : State) {r q : RegIndex} (v : Word) (h : q ≠ r) : (s.setReg r v).reg q = s.reg q := by
  rw [reg_setReg, if_neg (fun hh => h hh.1)]

theorem reg_setReg_self (s : State) (r : RegIndex) (v : Word) :
    (s.setReg r v).reg r = if r = 0 then 0 else v := by
  by_cases h : r = 0
  · subst h; rfl
  · rw [reg_setReg, if_pos ⟨rfl, h⟩, if_neg h]

/-- No register write touches the hardwired register's slot. -/
theorem writeRegs_zeroSlot (x : Vector Word 32) (r : RegIndex) (v : Word) :
    (writeRegs x r v).get 0 = x.get 0 := by
  by_cases hr : r = 0
  · subst hr; rfl
  have h0 : r.toNat ≠ 0 := fun h => hr (BitVec.eq_of_toNat_eq h)
  rw [writeRegs_of_ne hr]
  exact Vector.getElem_set_ne _ _ h0

end Sys2Proof.Machine
end

