-- ==== Sys2Proof/Laws/Ops.lean ====
section
/-!
SUPPORT. One lemma per shared operation that says once everything it can answer: the access check, the memory primitives, the
fetch, the end of a cycle, and the two shapes a whole instruction can take (`exec_next_shape`).
-/

namespace Sys2Proof.Machine

/-! ## Parameter values -/

@[simp] theorem config_misaligned : config.misaligned = .perform := rfl

/-! ## The access check and the memory primitives -/

/-- The check of R69 and R65, all of it. -/
theorem checkAccess_cases (c : Config) (a : Word) :
    (checkAccess c a = .error (.refused (.misalignedData a)) ∧ c.misaligned = .refuse ∧ a.toNat % 4 ≠ 0) ∨
    (checkAccess c a = .ok () ∧ dataInBounds c a) ∨
    (checkAccess c a = .error (.fault (.outOfBoundsData a)) ∧ ¬ dataInBounds c a) := by
  unfold checkAccess
  split_ifs with h1 h2
  · exact .inl ⟨rfl, h1.1, h1.2⟩
  · exact .inr (.inl ⟨rfl, h2⟩)
  · exact .inr (.inr ⟨rfl, h2⟩)

/-- Under `perform`, the check is the bounds check. -/
theorem checkAccess_perform {c : Config} (hc : c.misaligned = .perform) (a : Word) :
    checkAccess c a = if dataInBounds c a then .ok () else .error (.fault (.outOfBoundsData a)) := by
  simp [checkAccess, hc]

theorem memRead_perform {c : Config} (hc : c.misaligned = .perform) (a : Word) (s : State) :
    memRead c a s = if dataInBounds c a then .ok (readWord c.byteOrder s.dmem a.toNat)
      else .error (.fault (.outOfBoundsData a)) := by
  unfold memRead; rw [checkAccess_perform hc]; split_ifs <;> rfl

theorem memWrite_perform {c : Config} (hc : c.misaligned = .perform) (a v : Word) (s : State) :
    memWrite c a v s = if dataInBounds c a then .ok (writeWord c.byteOrder s.dmem a.toNat v)
      else .error (.fault (.outOfBoundsData a)) := by
  unfold memWrite; rw [checkAccess_perform hc]; split_ifs <;> rfl

/-- What a data read answers, whatever the policy. -/
theorem memRead_ok {c : Config} {a v : Word} {s : State} (h : memRead c a s = .ok v) :
    dataInBounds c a ∧ v = readWord c.byteOrder s.dmem a.toNat := by
  unfold memRead at h
  rcases checkAccess_cases c a with ⟨hc, -⟩ | ⟨hc, hb⟩ | ⟨hc, -⟩ <;> rw [hc] at h
  · cases h
  · cases h; exact ⟨hb, rfl⟩
  · cases h

/-- What a data write answers, whatever the policy. -/
theorem memWrite_ok {c : Config} {a v : Word} {s : State} {m : Memory} (h : memWrite c a v s = .ok m) :
    dataInBounds c a ∧ m = writeWord c.byteOrder s.dmem a.toNat v := by
  unfold memWrite at h
  rcases checkAccess_cases c a with ⟨hc, -⟩ | ⟨hc, hb⟩ | ⟨hc, -⟩ <;> rw [hc] at h
  · cases h
  · cases h; exact ⟨hb, rfl⟩
  · cases h

/-! ## Fetch and decode -/

/-- What the fetch answers. -/
theorem fetch_ok {c : Config} {a w : Word} {s : State} (h : fetch c a s = .ok w) :
    a.toNat < c.imemBytes ∧ w = s.slot (a.toNat / 4) := by
  unfold fetch at h
  split_ifs at h with hb
  · cases h; exact ⟨hb, rfl⟩

/-- A decoded instruction at `pc` is the decoding of the slot `pc` names. -/
theorem fetchDecode_ok {c : Config} {s : State} {i : Instr} (h : fetchDecode c s = .ok i) :
    s.pc.toNat < c.imemBytes ∧ decode c (s.slot (s.pc.toNat / 4)) = .ok i := by
  unfold fetchDecode at h
  split at h
  · cases h
  · next w hw =>
    obtain ⟨hb, rfl⟩ := fetch_ok hw
    split at h
    · next j hj => cases h; exact ⟨hb, hj⟩
    · cases h

theorem fetchDecode_of_decode {c : Config} {s : State} {i : Instr} (hb : s.pc.toNat < c.imemBytes)
    (h : decode c (s.slot (s.pc.toNat / 4)) = .ok i) : fetchDecode c s = .ok i := by
  simp [fetchDecode, fetch, hb, h]

/-! ## Instructions -/

/-- What a meaning can do to the state when it answers a next state: at most one register write, at most one data word in
bounds, one of the next addresses of R264, and the commit of `ctrl` and `out`. -/
structure NextShape (s t : State) : Prop where
  regs : t.regs = s.regs ∨ ∃ r v, t.regs = writeRegs s.regs r v
  dmem : t.dmem = s.dmem ∨ ∃ (a v : Word), dataInBounds config a ∧
    t.dmem = writeWord config.byteOrder s.dmem a.toNat v
  imem : t.imem = s.imem
  pc : t.pc = s.pc + 4 ∨ (∃ imm, t.pc = branchTarget s.pc imm) ∨ (∃ target, t.pc = jumpTarget s.pc target) ∨
    ∃ v, t.pc = jrTarget config v

theorem nextShape_writeBack {row : ControlSignals} {pv : Bool} {rd : RegIndex} {v : Word} {s t : State}
    (h : writeBack row pv rd v s = .next t) : NextShape s t := by
  cases h; exact ⟨.inr ⟨rd, v, rfl⟩, .inl rfl, rfl, .inl rfl⟩

/-- Everything an instruction can do, once for all of them. -/
theorem exec_next_shape {i : Instr} {s t : State} (h : exec i s = .next t) : NextShape s t := by
  cases i with
  | nop => cases h; exact ⟨.inl rfl, .inl rfl, rfl, .inl rfl⟩
  | exit => cases h; exact ⟨.inl rfl, .inl rfl, rfl, .inl rfl⟩
  | sll => cases h
  | srl => exact nextShape_writeBack h
  | sra => exact nextShape_writeBack h
  | jr => cases h; exact ⟨.inl rfl, .inl rfl, rfl, .inr (.inr (.inr ⟨_, rfl⟩))⟩
  | add => exact nextShape_writeBack h
  | sub => exact nextShape_writeBack h
  | and => exact nextShape_writeBack h
  | or => exact nextShape_writeBack h
  | nor => exact nextShape_writeBack h
  | slt => exact nextShape_writeBack h
  | j => cases h; exact ⟨.inl rfl, .inl rfl, rfl, .inr (.inr (.inl ⟨_, rfl⟩))⟩
  | beq rs rt imm =>
    cases h
    refine ⟨.inl rfl, .inl rfl, rfl, ?_⟩
    cases hb : branchTaken rs rt s
    · exact .inl (by simp)
    · exact .inr (.inl ⟨imm, by simp⟩)
  | addi => exact nextShape_writeBack h
  | ori => exact nextShape_writeBack h
  | lw rs rt imm =>
    change execLw rs rt imm s = _ at h
    unfold execLw at h
    split at h
    · exact nextShape_writeBack h
    · next e _ => cases e <;> cases h
  | sw rs rt imm =>
    change execSw rs rt imm s = _ at h
    unfold execSw at h
    split at h
    · next m hm =>
      obtain ⟨hb, rfl⟩ := memWrite_ok hm
      cases h
      exact ⟨.inl rfl, .inr ⟨_, _, hb, rfl⟩, rfl, .inl rfl⟩
    · next e _ => cases e <;> cases h

/-- A step that answers a next state fetched, decoded and executed an instruction. -/
theorem step_next {s t : State} (h : step s = .next t) :
    ∃ i, fetchDecode config s = .ok i ∧ exec i s = .next t := by
  unfold step at h
  split at h
  · next i hi => exact ⟨i, hi, h⟩
  · next e _ => cases e <;> cases h

theorem step_of_fetchDecode {s : State} {i : Instr} (h : fetchDecode config s = .ok i) : step s = exec i s := by
  simp [step, h]

end Sys2Proof.Machine
end

