-- ==== Sys2Proof/Laws/Operands.lean ====
section
/-!
SUPPORT. The operand forms as arithmetic on numbers, and the meanings of LW and SW once their bounds are known.
-/

namespace Sys2Proof.Machine

/-- The shift amount reaches the ALU's `B[4:0]` whole (R142, R143). -/
@[simp] theorem zext32_shamt (shamt : BitVec 5) : (zext32 shamt).extractLsb' 0 5 = shamt := by
  unfold zext32
  apply BitVec.eq_of_toNat_eq
  have := shamt.isLt
  simp
  omega

/-- The effective address is the exact sum modulo 2^32 (R240). -/
theorem effectiveAddress_eq (rs : RegIndex) (imm : BitVec 16) (s : State) :
    effectiveAddress rs imm s = BitVec.ofInt 32 ((s.reg rs).toInt + imm.toInt) := by
  simp only [effectiveAddress, alu, sext32, BitVec.ofInt_add]
  rw [BitVec.signExtend]
  simp

/-- The branch target is the branch's address plus four times the signed immediate, modulo 2^32 (R261). -/
theorem branchTarget_eq (pc0 : Word) (imm : BitVec 16) :
    branchTarget pc0 imm = BitVec.ofInt 32 (pc0.toNat + 4 * imm.toInt) := by
  unfold branchTarget sext32
  rw [BitVec.signExtend, BitVec.ofInt_add, BitVec.shiftLeft_eq_mul_twoPow, BitVec.ofInt_mul, mul_comm]
  simp [BitVec.twoPow]

/-- BEQ is taken exactly when the two registers are equal (R261). -/
theorem branchTaken_iff (rs rt : RegIndex) (s : State) : branchTaken rs rt s = true ↔ s.reg rs = s.reg rt := by
  simp only [branchTaken, isZero, alu, beq_iff_eq]
  exact sub_eq_zero

/-- J's target: its two parts do not overlap (R262). -/
theorem jumpTarget_append (pc0 : Word) (target : BitVec 26) :
    jumpTarget pc0 target = (pc0 + 4).extractLsb' 28 4 ++ target ++ (0 : BitVec 2) := by
  unfold jumpTarget zext32
  generalize pc0 + 4 = p
  apply BitVec.eq_of_getLsbD_eq
  intro i hi
  simp only [BitVec.getLsbD_append, BitVec.getLsbD_or, BitVec.getLsbD_and, BitVec.getLsbD_extractLsb',
    BitVec.getLsbD_shiftLeft, BitVec.getLsbD_setWidth]
  interval_cases i <;> simp

/-! ## LW and SW -/

theorem exec_lw_inBounds {s : State} {rs rt : RegIndex} {imm : BitVec 16}
    (h : dataInBounds config (effectiveAddress rs imm s)) :
    exec (.lw rs rt imm) s =
      writeBack rowLw false rt (readWord config.byteOrder s.dmem (effectiveAddress rs imm s).toNat) s := by
  change execLw rs rt imm s = _
  rw [execLw, memRead_perform rfl, if_pos h]

theorem exec_lw_outOfBounds {s : State} {rs rt : RegIndex} {imm : BitVec 16}
    (h : ¬ dataInBounds config (effectiveAddress rs imm s)) :
    exec (.lw rs rt imm) s = .fault (.outOfBoundsData (effectiveAddress rs imm s)) := by
  change execLw rs rt imm s = _
  rw [execLw, memRead_perform rfl, if_neg h]
  rfl

theorem exec_sw_inBounds {s : State} {rs rt : RegIndex} {imm : BitVec 16}
    (h : dataInBounds config (effectiveAddress rs imm s)) :
    exec (.sw rs rt imm) s =
      transferTo rowSw false (s.pc + 4)
        { s with dmem := writeWord config.byteOrder s.dmem (effectiveAddress rs imm s).toNat (s.reg rt) } := by
  change execSw rs rt imm s = _
  rw [execSw, memWrite_perform rfl, if_pos h]

theorem exec_sw_outOfBounds {s : State} {rs rt : RegIndex} {imm : BitVec 16}
    (h : ¬ dataInBounds config (effectiveAddress rs imm s)) :
    exec (.sw rs rt imm) s = .fault (.outOfBoundsData (effectiveAddress rs imm s)) := by
  change execSw rs rt imm s = _
  rw [execSw, memWrite_perform rfl, if_neg h]
  rfl

end Sys2Proof.Machine
end

