-- ==== Sys2Proof/Laws/PerInstr.lean ====
section
/-!
SUPPORT. Statements made of every instruction as data, one lemma per constructor. EncodeMatchesRow: the word of an instruction
agrees with its row of the catalog's table on every bit the row's mask names (30_encoding.md R100).
-/

namespace Sys2Proof.Laws.EncodeMatchesRow

/-- The encoder's word carries the match value of the instruction's row under its mask. -/
abbrev Statement (i : Instr) : Prop := encode config i &&& i.entry.maskWord = i.entry.matchWord

/-- Under an R-format mask a word shows its opcode and its funct. -/
theorem rMask (w : Word) : w &&& 0xFC00003F = opcodeOf w ++ (0 : BitVec 20) ++ functOf w := by
  unfold opcodeOf functOf
  apply BitVec.eq_of_getLsbD_eq
  intro i hi
  simp only [BitVec.getLsbD_append, BitVec.getLsbD_and, BitVec.getLsbD_extractLsb']
  interval_cases i <;> simp

/-- Under an I- or J-format mask a word shows its opcode. -/
theorem opMask (w : Word) : w &&& 0xFC000000 = opcodeOf w ++ (0 : BitVec 26) := by
  unfold opcodeOf
  apply BitVec.eq_of_getLsbD_eq
  intro i hi
  simp only [BitVec.getLsbD_append, BitVec.getLsbD_and, BitVec.getLsbD_extractLsb']
  interval_cases i <;> simp

theorem rWord_masked (rs rt rd : RegIndex) (shamt : BitVec 5) (fn : Funct) :
    rWord config rs rt rd shamt fn &&& 0xFC00003F = config.opRtype ++ (0 : BitVec 20) ++ fn := by
  rw [rMask, opcodeOf_rWord, functOf_rWord]

theorem iWord_masked (op : Opcode) (rs rt : RegIndex) (imm : BitVec 16) :
    iWord op rs rt imm &&& 0xFC000000 = op ++ (0 : BitVec 26) := by
  rw [opMask, opcodeOf_iWord]

theorem jWord_masked (op : Opcode) (target : BitVec 26) :
    jWord op target &&& 0xFC000000 = op ++ (0 : BitVec 26) := by
  rw [opMask, opcodeOf_jWord]

theorem nop : Statement .nop := by decide
theorem exit : Statement .exit := by decide
theorem sll (rs rt rd : RegIndex) (shamt : BitVec 5) : Statement (.sll rs rt rd shamt) :=
  rWord_masked rs rt rd shamt config.fnSll
theorem srl (rs rt rd : RegIndex) (shamt : BitVec 5) : Statement (.srl rs rt rd shamt) :=
  rWord_masked rs rt rd shamt config.fnSrl
theorem sra (rs rt rd : RegIndex) (shamt : BitVec 5) : Statement (.sra rs rt rd shamt) :=
  rWord_masked rs rt rd shamt config.fnSra
theorem jr (rs rt rd : RegIndex) (shamt : BitVec 5) : Statement (.jr rs rt rd shamt) :=
  rWord_masked rs rt rd shamt config.fnJr
theorem add (rs rt rd : RegIndex) (shamt : BitVec 5) : Statement (.add rs rt rd shamt) :=
  rWord_masked rs rt rd shamt config.fnAdd
theorem sub (rs rt rd : RegIndex) (shamt : BitVec 5) : Statement (.sub rs rt rd shamt) :=
  rWord_masked rs rt rd shamt config.fnSub
theorem and (rs rt rd : RegIndex) (shamt : BitVec 5) : Statement (.and rs rt rd shamt) :=
  rWord_masked rs rt rd shamt config.fnAnd
theorem or (rs rt rd : RegIndex) (shamt : BitVec 5) : Statement (.or rs rt rd shamt) :=
  rWord_masked rs rt rd shamt config.fnOr
theorem nor (rs rt rd : RegIndex) (shamt : BitVec 5) : Statement (.nor rs rt rd shamt) :=
  rWord_masked rs rt rd shamt config.fnNor
theorem slt (rs rt rd : RegIndex) (shamt : BitVec 5) : Statement (.slt rs rt rd shamt) :=
  rWord_masked rs rt rd shamt config.fnSlt
theorem j (target : BitVec 26) : Statement (.j target) := jWord_masked config.opJ target
theorem beq (rs rt : RegIndex) (imm : BitVec 16) : Statement (.beq rs rt imm) :=
  iWord_masked config.opBeq rs rt imm
theorem addi (rs rt : RegIndex) (imm : BitVec 16) : Statement (.addi rs rt imm) :=
  iWord_masked config.opAddi rs rt imm
theorem ori (rs rt : RegIndex) (imm : BitVec 16) : Statement (.ori rs rt imm) :=
  iWord_masked config.opOri rs rt imm
theorem lw (rs rt : RegIndex) (imm : BitVec 16) : Statement (.lw rs rt imm) :=
  iWord_masked config.opLw rs rt imm
theorem sw (rs rt : RegIndex) (imm : BitVec 16) : Statement (.sw rs rt imm) :=
  iWord_masked config.opSw rs rt imm

end Sys2Proof.Laws.EncodeMatchesRow
end

