-- ==== Sys2Proof/Tests/Slice0.lean ====
section
/-!
SUPPORT. The model's own tests. Every expected value is the spec's: the vector of 95_test_vectors.md or the rule each test
names (S.., V-..). The second half shows, for every statement with hypotheses, a state and operands that meet them.
-/

namespace Sys2Proof.Tests

open Sys2Proof.Machine Sys2Proof.Claims

/-! ## Helpers -/

/-- A fresh CORE with some registers and data bytes written and `pc` set. -/
def start (regs : List (RegIndex × Word)) (bytes : List (Nat × Byte)) (pc : Word) : State :=
  { regs.foldl (fun s p => s.setReg p.1 p.2) State.reset with
    dmem := bytes.foldl (fun m p => sparseSet m p.1 p.2) [], pc := pc }

/-- One step at the word `w` from `s`: the next state, if there is one. -/
def next (w : Word) (s : State) : Option State :=
  match step (s.withFetchWord 32 w.toNat) with
  | .next t => some t
  | .fault _ => none
  | .refused _ => none

/-- One step at the word `w` from `s`: the fault, if there is one. -/
def fault (w : Word) (s : State) : Option Fault :=
  match step (s.withFetchWord 32 w.toNat) with
  | .next _ => none
  | .fault f => some f
  | .refused _ => none

/-- What a register, `pc` and the outcome ports hold after one step. -/
def after (w : Word) (s : State) (r : RegIndex) : Option (Word × Word × Outputs) :=
  (next w s).map fun t => (t.reg r, t.pc, t.out)

/-- Executed, fully valid. -/
def ran : Outputs := ⟨some .executed, false⟩

/-- The four bytes from `a` after one step. -/
def bytesAfter (w : Word) (s : State) (a : Nat) : Option (List Byte) :=
  (next w s).map fun t => [t.byte a, t.byte (a + 1), t.byte (a + 2), t.byte (a + 3)]

/-! ## WellFormed -/

/-- R98: the all-zero word is the no-op, so the all-zero SLL is ill-formed. -/
theorem test_wf_refuses_all_zero_sll : (Instr.sll 0 0 0 0).wf = false := by decide

theorem test_wf_admits_other_sll :
    (Instr.sll 1 0 0 0).wf = true ∧ (Instr.sll 0 1 0 0).wf = true ∧ (Instr.sll 0 0 1 0).wf = true ∧
      (Instr.sll 0 0 0 1).wf = true := by decide

/-! ## Decoding, words written out field by field from R92 and R100 -/

/-- V-D1. -/
theorem test_decode_nop : decodeTableWord 32 0b00000000000000000000000000000000 = some .nop := by decide
/-- V-D2. -/
theorem test_decode_exit : decodeTableWord 32 0b11111111111111111111111111111111 = some .exit := by decide
/-- V-H10, `000000 00000 01001 01000 00010 000000`. -/
theorem test_decode_sll : decodeTableWord 32 0b00000000000010010100000010000000 = some (.sll 0 9 8 2) := by decide
/-- V-D6, `000000 01001 01011 01110 00100 000010`. -/
theorem test_decode_srl : decodeTableWord 32 0b00000001001010110111000100000010 = some (.srl 9 11 14 4) := by decide
/-- V-H9, `000000 00000 01011 01101 00100 000011`. -/
theorem test_decode_sra : decodeTableWord 32 0b00000000000010110110100100000011 = some (.sra 0 11 13 4) := by decide
/-- V-D7, `000000 11111 11111 11111 11111 001000`. -/
theorem test_decode_jr : decodeTableWord 32 0b00000011111111111111111111001000 = some (.jr 31 31 31 31) := by decide
/-- V-D5, `000000 01001 01010 01011 11111 100000`. -/
theorem test_decode_add : decodeTableWord 32 0b00000001001010100101111111100000 = some (.add 9 10 11 31) := by decide
/-- V-A6, `000000 01001 01000 01011 00000 100010`. -/
theorem test_decode_sub : decodeTableWord 32 0b00000001001010000101100000100010 = some (.sub 9 8 11 0) := by decide
/-- V-A9, `000000 00011 01001 00100 00000 100100`. -/
theorem test_decode_and : decodeTableWord 32 0b00000000011010010010000000100100 = some (.and 3 9 4 0) := by decide
/-- V-A10, `000000 00011 01001 00101 00000 100101`. -/
theorem test_decode_or : decodeTableWord 32 0b00000000011010010010100000100101 = some (.or 3 9 5 0) := by decide
/-- V-A11, `000000 01000 01001 01111 00000 100111`. -/
theorem test_decode_nor : decodeTableWord 32 0b00000001000010010111100000100111 = some (.nor 8 9 15 0) := by decide
/-- V-A13, `000000 01011 00000 01100 00000 101010`. -/
theorem test_decode_slt : decodeTableWord 32 0b00000001011000000110000000101010 = some (.slt 11 0 12 0) := by decide
/-- V-D9, `000010` and 26 ones. -/
theorem test_decode_j : decodeTableWord 32 0b00001011111111111111111111111111 = some (.j 0x3FFFFFF) := by decide
/-- V-B7, `000100 01000 01001 1000000000000000`. -/
theorem test_decode_beq : decodeTableWord 32 0b00010001000010011000000000000000 = some (.beq 8 9 0x8000) := by decide
/-- R101, V-D8, `001000 11101 11101 1111111111111000`. -/
theorem test_decode_addi : decodeTableWord 32 0b00100011101111011111111111111000 = some (.addi 29 29 0xFFF8) := by decide
/-- V-ORI3, `001101 01001 01000 0000000011111111`. -/
theorem test_decode_ori : decodeTableWord 32 0b00110101001010000000000011111111 = some (.ori 9 8 0x00FF) := by decide
/-- V-L3, `100011 01001 01010 1111111111111100`. -/
theorem test_decode_lw : decodeTableWord 32 0b10001101001010101111111111111100 = some (.lw 9 10 0xFFFC) := by decide
/-- V-S1, `101011 01001 01000 0000000000010100`. -/
theorem test_decode_sw : decodeTableWord 32 0b10101101001010000000000000010100 = some (.sw 9 8 20) := by decide

/-- V-D10 to V-D14: unknown words, and two R103 names besides (ADDU `0x01095021`, MADD's opcode `0x70000000`). -/
theorem test_decode_unknown :
    [0x0000000C, 0x00000001, 0x3C080001, 0xFFFFFFFE, 0x0C000002, 0x01095021, 0x70000000].all
      (fun w => decodeTableWord 32 w == none) = true := by decide

/-- R100's table: any two rows that are neither whole word differ in a bit both masks name, so no word selects two. -/
theorem test_catalog_rows_disjoint :
    (catalog.filter fun e => e != .nop && e != .exit).Pairwise
      (fun a b => a.matchWord &&& (a.maskWord &&& b.maskWord) ≠ b.matchWord &&& (a.maskWord &&& b.maskWord)) := by
  decide

/-- V-D3, V-D5, V-D7, V-D12: the validity flag. -/
theorem test_validity :
    validityOf config 0x00000040 = .fullyValid ∧ validityOf config 0x012A5FE0 = .partiallyValid ∧
      validityOf config 0x03FFFFC8 = .partiallyValid ∧ validityOf config 0x3C080001 = .unknown ∧
      violationsOf .add 0x012A5FE0 = [(.shamt, 31)] := by decide

/-- S2. -/
theorem test_decompose_compose :
    decompose 0x23bdfff8 [6, 5, 5, 16] = .ok [8, 29, 29, 0xFFF8] ∧
      compose [8, 29, 29, 0xFFF8] [6, 5, 5, 16] = some 0x23bdfff8 ∧ compose [8, 32, 0, 0] [6, 5, 5, 16] = none := by
  decide

/-! ## One step of each instruction -/

/-- V-A1. -/
theorem test_add : after 0x01091020 (start [(8, 3), (9, 5)] [] 0) 2 = some (8, 4, ran) := by decide
/-- V-A5, V-A17. -/
theorem test_add_in_place_and_partially_valid :
    after 0x01084020 (start [(8, 0x40000000)] [] 0) 8 = some (0x80000000, 4, ran) ∧
      after 0x012A5FE0 (start [(9, 3), (10, 4)] [] 0) 11 = some (7, 4, ⟨some .executed, true⟩) := by decide
/-- V-A6. -/
theorem test_sub : after 0x01285822 (start [(9, 3), (8, 5)] [] 0) 11 = some (0xFFFFFFFE, 4, ran) := by decide
/-- V-A7. -/
theorem test_sub_wraps : after 0x01285822 (start [(9, 0x80000000), (8, 1)] [] 0) 11 = some (0x7FFFFFFF, 4, ran) := by decide
/-- V-A9. -/
theorem test_and :
    after 0x00692024 (start [(3, 0xF0F0FF00), (9, 0x0FF0F0F0)] [] 0) 4 = some (0x00F0F000, 4, ran) := by decide
/-- V-A10. -/
theorem test_or :
    after 0x00692825 (start [(3, 0xF0F0FF00), (9, 0x0FF0F0F0)] [] 0) 5 = some (0xFFF0FFF0, 4, ran) := by decide
/-- V-A11. -/
theorem test_nor :
    after 0x01097827 (start [(8, 0xF0F0FF00), (9, 0x0FF0F0F0)] [] 0) 15 = some (0x000F000F, 4, ran) := by decide
/-- V-A14. -/
theorem test_slt_signed :
    after 0x0109602A (start [(8, 0x80000000), (9, 0x7FFFFFFF)] [] 0) 12 = some (1, 4, ran) := by decide
/-- V-A15. -/
theorem test_slt_not_less :
    after 0x0109602A (start [(8, 0x7FFFFFFF), (9, 0x80000000), (12, 9)] [] 0) 12 = some (0, 4, ran) := by decide
/-- V-H3. -/
theorem test_srl : after 0x000B77C2 (start [(11, 0x80000001)] [] 0) 14 = some (1, 4, ran) := by decide
/-- V-H4. -/
theorem test_srl_ignores_rs :
    after 0x012B7102 (start [(11, 0x80000001), (9, 0xDEAD)] [] 0) 14 = some (0x08000000, 4, ⟨some .executed, true⟩) := by
  decide
/-- V-H6. -/
theorem test_sra : after 0x000B6FC3 (start [(11, 0x80000000)] [] 0) 13 = some (0xFFFFFFFF, 4, ran) := by decide
/-- V-H9. -/
theorem test_sra_positive : after 0x000B6903 (start [(11, 0x12345678)] [] 0) 13 = some (0x01234567, 4, ran) := by decide
/-- V-H10. -/
theorem test_sll_faults :
    fault 0x00094080 (start [(9, 1), (8, 7)] [] 8) = some (.unsupportedOpcode 0 0) := by decide
/-- V-I1. -/
theorem test_addi : after 0x23BDFFF8 (start [(29, 0x100)] [] 0) 29 = some (0xF8, 4, ran) := by decide
/-- V-I6. -/
theorem test_addi_zero_destination : after 0x21000001 (start [(8, 5)] [] 0) 0 = some (0, 4, ran) := by decide
/-- V-ORI1. -/
theorem test_ori_adds : after 0x3510FFFF (start [(8, 5)] [] 0) 16 = some (4, 4, ran) := by decide
/-- V-ORI3. -/
theorem test_ori_overlapping_bits : after 0x352800FF (start [(9, 0x0F0F)] [] 0) 8 = some (0x100E, 4, ran) := by decide
/-- V-L1. -/
theorem test_lw_misaligned : after 0x8D2A0014 (start [(9, 3)] [(26, 5)] 0) 10 = some (5, 4, ran) := by decide
/-- V-L3 and V-L4: the last word in bounds and the first address out of bounds. -/
theorem test_lw_bounds :
    after 0x8D2AFFFC (start [(9, 1000)] [(996, 0x80), (999, 1)] 0) 10 = some (0x80000001, 4, ran) ∧
      fault 0x8D2AFFFD (start [(9, 1000)] [] 0) = some (.outOfBoundsData 0x3E5) := by decide
/-- V-S1. -/
theorem test_sw : bytesAfter 0xAD280014 (start [(8, 5), (9, 3)] [] 0) 23 = some [0, 0, 0, 5] := by decide
/-- V-S3 and V-S4. -/
theorem test_sw_bounds :
    bytesAfter 0xAC0803E4 (start [(8, 0x01020304)] [] 0) 996 = some [1, 2, 3, 4] ∧
      fault 0xAC0803E5 (start [(8, 0x01020304)] [] 0) = some (.outOfBoundsData 0x3E5) := by decide
/-- V-B1 and V-B2. -/
theorem test_beq :
    after 0x11090006 (start [(8, 5), (9, 5)] [] 0) 0 = some (0, 24, ran) ∧
      after 0x11090006 (start [(8, 5), (9, 6)] [] 0) 0 = some (0, 4, ran) := by decide
/-- V-B6. -/
theorem test_beq_backward_wraps : after 0x1000FFFF (start [] [] 0) 0 = some (0, 0xFFFFFFFC, ran) := by decide
/-- V-J1. -/
theorem test_j : after 0x08000002 (start [] [] 20) 0 = some (0, 8, ran) := by decide
/-- V-J3. -/
theorem test_j_largest_target : after 0x0BFFFFFF (start [] [] 0) 0 = some (0, 0x0FFFFFFC, ran) := by decide
/-- V-R1. -/
theorem test_jr : after 0x01200008 (start [(9, 4)] [] 20) 9 = some (4, 16, ran) := by decide
/-- V-R6. -/
theorem test_jr_partially_valid :
    after 0x03FFFFC8 (start [(31, 3)] [] 0) 31 = some (3, 12, ⟨some .executed, true⟩) := by decide
/-- V-N1. -/
theorem test_nop : after 0x00000000 (start [(8, 1)] [] 12) 8 = some (1, 16, ran) := by decide
/-- V-E1. -/
theorem test_exit : after 0xFFFFFFFF (start [(8, 1)] [] 12) 8 = some (1, 16, ⟨some .halted, false⟩) := by decide
/-- V-F1, V-F3 and V-F6 (a fetch at a misaligned `pc`). -/
theorem test_fetch :
    step (start [] [] 1000) = .fault (.outOfBoundsFetch 1000) ∧
      fault 0x0000000C (start [] [] 0) = some (.unknownInstruction 0x0000000C) ∧
      after 0x20080001 (start [] [] 5) 8 = some (1, 9, ran) := ⟨rfl, by decide, by decide⟩

/-! ## Assembler and host -/

/-- S4 and S5. -/
theorem test_assembler_aliases :
    assembleLine config "add $9, $10, $11".toList = .ok 0x014B4820 ∧
      assembleLine config "add $t1,$t2,$t3".toList = .ok 0x014B4820 := by decide

/-- One line of each pattern of R108, the words of 95_test_vectors.md. -/
theorem test_assembler_patterns :
    ["nop", "jr $t1", "srl $t6,$t3,28", "addi $sp,$sp,-8", "lw $t2,-4($t1)", "sw $t0,20($t1)", "beq $t0,$t1,6", "j 2",
      "exit"].map (fun t => (assembleLine config t.toList).toOption) =
      [some 0x00000000, some 0x01200008, some 0x000B7702, some 0x23BDFFF8, some 0x8D2AFFFC, some 0xAD280014,
        some 0x11090006, some 0x08000002, some 0xFFFFFFFF] := by decide

/-- R115, R109, R111: errors, by name. -/
theorem test_assembler_errors :
    assembleLine config "addu $9,$10,$11".toList = .error (.unknownMnemonic "addu".toList) ∧
      assembleLine config "add $9,$10".toList = .error (.malformedMnemonic "add $9,$10".toList) ∧
      assembleLine config "add $9,$10,$32".toList = .error (.malformedMnemonic "$32".toList) ∧
      assembleLine config "addi $9,$10,65536".toList = .error (.malformedMnemonic "65536".toList) ∧
      assembleLine config "lw $t2,20($t1".toList = .error (.malformedMnemonic "20($t1".toList) ∧
      assembleLine config "nop # note".toList = .error (.malformedMnemonic "#".toList) := by decide

/-- R110. -/
theorem test_literals :
    ["-8", "0x1F", "0B101", "0d42", " 7 ", "0x", "1F"].map (fun t => parseLiteral t.toList) =
      [some (-8), some 31, some 5, some 42, some 7, none, none] := by decide

/-- V-O2 and V-O3. -/
theorem test_load :
    (loadText config "addi $t0,$zero,5\n\nexit\n".toList (start [(8, 9)] [(0, 1)] 40)).toOption.map
        (fun t => (t.slot 0, t.slot 1, t.slot 2, t.pc, t.reg 8, t.byte 0)) =
      some (0x20080005, 0xFFFFFFFF, 0, 0, 9, 1) ∧
      loadWords config (List.replicate 251 0) State.reset = .error (.outOfBounds 251) :=
  ⟨by decide, by rw [loadWords, List.length_replicate]; rfl⟩

/-- V-O5, V-O6, V-O7 and V-O8. -/
theorem test_host :
    (writeRegister "$zero".toList 7 State.reset).map (fun t => t.reg 0) = some 0 ∧
      readRegister "$t3".toList (start [(11, 0xFFFFFFFE)] [] 0) = some (-2) ∧
      readMemoryWord 23 (start [] [(26, 5)] 0) = .ok 5 ∧
      run [true] State.reset = .cancelled State.reset := by decide

/-! ## States and operands that meet the statements' hypotheses -/

/-- DecodeInvertsEncode, EncodeInvertsDecode, OnlyTheZeroWordIsNop, WiredBlocksRefineTheCycle: a valid choice of the
parameters (this hardware's) under the policy `perform`, with a well-formed instruction, a word that decodes to it and a
non-zero word of opcode 0 and funct 0. -/
theorem test_meets_encoding :
    config.Valid ∧ config.misaligned = .perform ∧ (Instr.addi 29 29 0xFFF8).wf = true ∧
      decode config 0x23BDFFF8 = .ok (.addi 29 29 0xFFF8) ∧ opcodeOf 0x00000040 = 0 ∧ functOf 0x00000040 = 0 := by decide

/-- The same two hypotheses are met by a choice that is not this hardware's: other capacities, byte order and numbers. -/
theorem test_meets_other_parameters :
    ({ config with
        imemBytes := 4096, dmemBytes := 65536, byteOrder := .little, jrShift := 0, haltWord := 0xFC000000
        opLw := 0x30, fnSlt := 0x3F } : Config).Valid := by decide

/-- ComposeInvertsDecompose: widths that sum to 32 with a field in the middle, widths that do not, and fields `compose` takes. -/
theorem test_meets_compose :
    ([6, 5] ++ 5 :: [16]).sum = 32 ∧ [6, 5, 5].sum ≠ 32 ∧ Format.r ≠ .none ∧
      decompose 0x23bdfff8 [6, 5, 5, 16] = .ok [8, 29, 29, 0xFFF8] ∧
      compose [8, 29, 29, 0xFFF8] [6, 5, 5, 16] = some 0x23bdfff8 := by decide

/-- ValidityFlagIsUnusedFields: a known word, with its entry and its instruction. -/
theorem test_meets_validity :
    entryOf config 0x012A5FE0 = some .add ∧ decode config 0x012A5FE0 = .ok (.add 9 10 11 31) := by decide

/-- PartiallyValidExecutesAsItsTwin, OnlyTheDestinationRegisterChanges, OutcomeDependsOnSourcesOnly, ZeroRegisterIsHardwired,
EveryCycleSetsPcByTheTable, OnlyStoresChangeMemory: an instruction that answers a next state (a partially valid one that is no
SW) and one that faults. -/
theorem test_meets_exec :
    (∃ t, exec (.add 9 10 11 31) (start [(9, 3), (10, 4)] [] 0) = .next t) ∧ (Instr.add 9 10 11 31).entry ≠ .sw ∧
      exec (.sll 9 1 2 3) State.reset = .fault (.unsupportedOpcode 0 0) ∧
      destination (.add 9 10 11 31) ≠ some 12 := ⟨⟨_, rfl⟩, by decide, rfl, by decide⟩

/-- RegistersDoNotAlias: a register that is not the hardwired one, and another. -/
theorem test_meets_registers : (31 : RegIndex) ≠ 0 ∧ (1 : RegIndex) ≠ 31 := by decide

/-- OutcomeDependsOnSourcesOnly: other register contents that agree on the two sources of an ADD and differ elsewhere. -/
theorem test_meets_sources :
    (∀ r ∈ sources (.add 9 10 11 0), readRegs (start [(9, 3), (10, 4), (8, 7)] [] 0).regs r =
      (start [(9, 3), (10, 4)] [] 0).reg r) ∧
      (start [(9, 3), (10, 4), (8, 7)] [] 0).reg 8 ≠ (start [(9, 3), (10, 4)] [] 0).reg 8 := by decide

/-- LoadWordReadsBigEndian, StoreWordWritesFourBytes: the last address in bounds, 996, from a base and a displacement, over a
canonical memory. -/
theorem test_meets_access :
    (996 : Word) = wrapAdd ((start [(9, 1000)] [(996, 1)] 0).reg 9).toInt (0xFFFC : BitVec 16).toInt ∧
      (996 : Word).toNat + 3 ≤ config.dmemBytes - 1 ∧ Memory.wf (start [(9, 1000)] [(996, 1)] 0).dmem = true := by decide

/-- OutOfBoundsAccessFaults: the first address out of bounds, 997, and the largest one, 2^32 - 1. -/
theorem test_meets_out_of_bounds :
    (997 : Word) = wrapAdd ((start [(9, 1000)] [] 0).reg 9).toInt (0xFFFD : BitVec 16).toInt ∧
      config.dmemBytes - 4 < (997 : Word).toNat ∧
      (0xFFFFFFFF : Word) = wrapAdd (State.reset.reg 0).toInt (0xFFFF : BitVec 16).toInt ∧
      config.dmemBytes - 4 < (0xFFFFFFFF : Word).toNat := by decide

/-- BeqIsRelativeToItself: both cases of its condition. -/
theorem test_meets_beq :
    (start [(8, 5), (9, 5)] [] 0).reg 8 = (start [(8, 5), (9, 5)] [] 0).reg 9 ∧
      (start [(8, 5), (9, 6)] [] 0).reg 8 ≠ (start [(8, 5), (9, 6)] [] 0).reg 9 := by decide

/-- OnlyStoresChangeMemory: a state that another reaches by a cycle. -/
theorem test_meets_reaches : ∃ t, Reaches State.reset t ∧ t.pc = 4 := ⟨_, .tail (.refl _) rfl, rfl⟩

/-- StepRunsTheDecodedInstruction: the first and the last slot; a slot that holds an encoded well-formed instruction. -/
theorem test_meets_step :
    (start [] [] 0).pc.toNat < config.imemBytes ∧ (start [] [] 996).pc.toNat < config.imemBytes ∧
      decode config ((start [] [] 996).slot (996 / 4)) = .ok .nop ∧ (Instr.add 9 10 11 0).wf = true ∧
      ((start [] [] 996).withFetchWord 32 0x012A5820).slot (996 / 4) = encode config (.add 9 10 11 0) := by decide

/-- FaultsHaveExactlyFourCauses, FaultingCycleCommitsNothing, EveryCycleSetsPcByTheTable: each of the four faults, at the first
`pc` and the first data address out of bounds. -/
theorem test_meets_faults :
    step (start [] [] 1000) = .fault (.outOfBoundsFetch 1000) ∧
      step ((start [] [] 996).withFetchWord 32 0x0000000C) = .fault (.unknownInstruction 0x0000000C) ∧
      step ((start [] [] 996).withFetchWord 32 0x00000040) = .fault (.unsupportedOpcode 0 0) ∧
      step ((start [] [] 996).withFetchWord 32 0x8C0003E5) = .fault (.outOfBoundsData 997) := ⟨rfl, rfl, rfl, rfl⟩

/-- IdleAndResetEdges: inputs with `rst` and a load of slot 0 asserted on one edge; R136: the slot is kept. -/
theorem test_meets_reset_edge :
    ({ CoreIn.reset with iLoadWe := true, iLoadWord := 1 } : CoreIn).rst = true ∧
      (coreTick config { CoreIn.reset with iLoadWe := true, iLoadWord := 1 } State.reset).1.slot 0 = 0 := by decide

/-- HaltIsAnOutcomeNotAState: a slot that holds HALT_WORD, and one that does not. -/
theorem test_meets_halt :
    ((start [] [] 996).withFetchWord 32 0xFFFFFFFF).slot (996 / 4) = config.haltWord ∧
      (start [] [] 996).slot (996 / 4) ≠ config.haltWord := by decide

/-- StepKeepsTheInvariant, HostOperationsKeepTheInvariant: a state that meets the invariant, with listed bytes and a listed
slot, takes a step, a load and a register write. -/
theorem test_meets_invariant :
    ((start [(8, 5)] [(3, 7), (999, 1)] 8).withFetchWord 32 0xAC0803E4).Inv config ∧
      (∃ t, step ((start [(8, 5)] [(3, 7), (999, 1)] 8).withFetchWord 32 0xAC0803E4) = .next t) ∧
      (∃ t, loadWords config [0x20080005, 0xFFFFFFFF] State.reset = .ok t) ∧
      ∃ t, writeRegister "$ra".toList 7 State.reset = some t :=
  ⟨⟨by decide, by decide, by decide, by decide, by decide, by decide⟩, ⟨_, rfl⟩, ⟨_, rfl⟩, ⟨_, rfl⟩⟩

/-- LoadAfterStoreSeesTheStore, LaterStoreWins, OverlappingAccessesAreBigEndian, WordAccessRoundTrip: a canonical memory and the
last addresses in bounds, aligned and misaligned. -/
theorem test_meets_memory :
    Memory.wf (start [] [(3, 7)] 0).dmem = true ∧
      (effectiveAddress 0 996 (start [] [(3, 7)] 0)).toNat + 3 ≤ config.dmemBytes - 1 ∧
      (effectiveAddress 0 995 (start [] [(3, 7)] 0)).toNat + 3 ≤ config.dmemBytes - 1 ∧
      (995 : Word).toNat + 4 ≤ config.dmemBytes - 1 ∧ (996 : Word).toNat + 4 ≤ config.dmemBytes := by decide

/-- MisalignedRefusedOnlyByPolicy: the other policy refuses a misaligned read and write, out of bounds too, and no aligned one. -/
theorem test_meets_policy :
    memRead { config with misaligned := .refuse } 997 State.reset = .error (.refused (.misalignedData 997)) ∧
      memWrite { config with misaligned := .refuse } 997 1 State.reset = .error (.refused (.misalignedData 997)) ∧
      memRead { config with misaligned := .refuse } 996 State.reset = .ok 0 ∧
      memWrite { config with misaligned := .refuse } 996 1 State.reset = .ok [(999, 1)] := by decide

/-- LoadFillsInstructionMemory: the longest program that fits and the shortest that does not. -/
theorem test_meets_load : (List.replicate 250 (1 : Word)).length ≤ 250 ∧ 250 < (List.replicate 251 (1 : Word)).length := by
  rw [List.length_replicate, List.length_replicate]; decide

/-- RunEndsNormallyByHalt: a run that halts at its first cycle, and one cancelled before it. -/
theorem test_meets_run :
    (∃ t, run [false] (State.reset.withFetchWord 32 0xFFFFFFFF) = .halted t) ∧
      run [true] State.reset = .cancelled State.reset := ⟨⟨_, rfl⟩, rfl⟩

/-- AssemblerComposesThreeRegisterForms: a mnemonic of the pattern, with a symbolic name and two spellings of an index. -/
theorem test_meets_assembler :
    patternOf .add = .rdRsRt ∧ parseRegister "$ra".toList = some 31 ∧ parseRegister "$9".toList = some 9 ∧
      parseRegister "$09".toList = some 9 ∧
      lineOf .add ["$ra".toList, "$9".toList, "$zero".toList] = "add $ra,$9,$zero".toList := by decide

end Sys2Proof.Tests
end

section
/-!
The hardwired register (R33): the host's writes to it by either spelling, and the obligation ZeroRegisterIsHardwired.
-/

namespace Sys2Proof.Machine

theorem parseRegister_zeroName : parseRegister "$zero".toList = some 0 := by decide

theorem parseRegister_zeroIndex : parseRegister "$0".toList = some 0 := by decide

/-- R337: the host's write succeeds under every spelling of the hardwired register, and is discarded. -/
theorem writeRegister_of_zero {name : List Char} (hname : parseRegister name = some 0) (v : Word) (s : State) :
    writeRegister name v s = some s := by
  rw [writeRegister, hname, Option.map_some]
  exact congrArg some (setReg_zero s v)

/-- Settles O14: the read port answers 0 for register 0 and the write port discards, whatever the state; so no writer, an
instruction or the host, can make another value visible there. -/
theorem zeroRegisterIsHardwired : Obligations.ZeroRegisterIsHardwired := fun s v =>
  ⟨reg_zero s, setReg_zero s v, writeRegister_of_zero parseRegister_zeroName v s,
    writeRegister_of_zero parseRegister_zeroIndex v s, fun _ t _ => reg_zero t⟩

end Sys2Proof.Machine
end

section
/-!
Decoding through the catalog entry (R97): `decode` answers the fields of the entry a word selects. The obligation
OnlyTheZeroWordIsNop.
-/

namespace Sys2Proof

theorem decode_of_entryOf {c : Config} {w : Word} {e : Entry} (h : entryOf c w = some e) :
    decode c w = .ok (ofFields e w) := by
  rw [decode, h]

theorem entryOf_of_decode {c : Config} {w : Word} {i : Instr} (h : decode c w = .ok i) :
    ∃ e, entryOf c w = some e ∧ ofFields e w = i := by
  rw [decode] at h
  split at h
  case h_1 e he => exact ⟨e, he, Except.ok.inj h⟩
  case h_2 => cases h

@[simp] theorem entry_ofFields (e : Entry) (w : Word) : (ofFields e w).entry = e := by
  cases e <;> rfl

theorem entryOf_zero (c : Config) : entryOf c 0 = some .nop := if_pos rfl

/-- R98: the no-op's entry is reached through the whole word only, not through a key. -/
theorem eq_zero_of_entryOf_nop {c : Config} {w : Word} (h : entryOf c w = some .nop) : w = 0 := by
  obtain ⟨h0, -⟩ | ⟨-, -, hx⟩ | ⟨-, -, hn, -⟩ := entryOf_cases h
  · exact h0
  · cases hx
  · exact absurd rfl hn

theorem eq_zero_of_decode_nop {c : Config} {w : Word} (h : decode c w = .ok .nop) : w = 0 := by
  obtain ⟨e, he, hi⟩ := entryOf_of_decode h
  have hnop : e = .nop := by rw [← entry_ofFields e w, hi, Instr.entry]
  exact eq_zero_of_entryOf_nop (hnop ▸ he)

/-- R98: opcode 0 and funct 0 are SLL's key (R5 fixes `OP_RTYPE` and `FN_SLL`), so a word other than zero selects SLL. -/
theorem entryOf_sll {c : Config} (hc : c.Valid) {w : Word} (h0 : w ≠ 0) (ho : opcodeOf w = 0) (hf : functOf w = 0) :
    entryOf c w = some .sll := by
  have ⟨_, _, _, _, _, _, _, _, _, hop, hfn⟩ := hc
  refine entryOf_key hc (by decide) (by decide) h0 (ho.trans hop.symm) fun f hk => ?_
  rw [hf, ← hfn]
  exact Option.some.inj hk

/-- Settles O6: the zero word selects NOP's entry and is the only one that does; SLL has the key of the others. -/
theorem onlyTheZeroWordIsNop : Obligations.OnlyTheZeroWordIsNop := fun c hc =>
  ⟨decode_of_entryOf (entryOf_zero c), fun _ => eq_zero_of_decode_nop,
    fun _ h0 ho hf => decode_of_entryOf (entryOf_sll hc h0 ho hf)⟩

end Sys2Proof
end

section
/-!
The bit-field codec (R93 to R95): what `fieldsBelow` cuts at each place, `composeFrom` as its inverse, and the obligations
ComposeInvertsDecompose and BitsReadsTheRange.
-/

namespace Sys2Proof

@[simp] theorem length_fieldsBelow (w top : Nat) (widths : List Nat) :
    (fieldsBelow w top widths).length = widths.length := by
  induction widths generalizing top with
  | nil => rfl
  | cons n rest ih => rw [fieldsBelow, List.length_cons, ih, List.length_cons]

theorem fieldsBelow_append (w top : Nat) (before after : List Nat) :
    fieldsBelow w top (before ++ after) = fieldsBelow w top before ++ fieldsBelow w (top - before.sum) after := by
  induction before generalizing top with
  | nil => rfl
  | cons n rest ih => simp only [List.cons_append, fieldsBelow, ih, List.sum_cons, Nat.sub_sub]

/-- R93: the field at a place is the one above the widths that remain. -/
theorem getElem?_fieldsBelow_middle (w : Nat) {top n : Nat} {before after : List Nat}
    (h : (before ++ n :: after).sum = top) :
    (fieldsBelow w top (before ++ n :: after))[before.length]? = some (w / 2 ^ after.sum % 2 ^ n) := by
  have hrest : top - before.sum - n = after.sum := by
    rw [← h, List.sum_append, List.sum_cons, Nat.add_sub_cancel_left, Nat.add_sub_cancel_left]
  rw [fieldsBelow_append, List.getElem?_append_right (by simp), length_fieldsBelow, Nat.sub_self, fieldsBelow, hrest,
    List.getElem?_cons_zero]

theorem decompose_eq_ok_iff {w : Word} {widths fs : List Nat} :
    decompose w widths = .ok fs ↔ widths.sum = 32 ∧ fieldsBelow w.toNat 32 widths = fs := by
  rw [decompose]
  split
  case isTrue h => simp [h]
  case isFalse h => simp [h]

/-- R94: composing after `acc` answers the numbers that `fieldsBelow` cuts into these fields, with `acc` above them. The step
is the uniqueness of quotient and remainder by the first field's `2 ^ n`. -/
theorem composeFrom_eq_some_iff {acc v : Nat} {fs widths : List Nat} :
    composeFrom acc fs widths = some v ↔ fieldsBelow v widths.sum widths = fs ∧ v / 2 ^ widths.sum = acc := by
  induction widths generalizing acc fs with
  | nil => cases fs <;> simp [composeFrom, fieldsBelow, eq_comm]
  | cons n ns ih =>
    cases fs with
    | nil => simp [composeFrom, fieldsBelow]
    | cons f fs =>
      have hsplit : v / 2 ^ (n + ns.sum) = v / 2 ^ ns.sum / 2 ^ n := by
        rw [Nat.add_comm, Nat.pow_add, Nat.div_div_eq_div_mul]
      have hunique : v / 2 ^ ns.sum / 2 ^ n = acc ∧ v / 2 ^ ns.sum % 2 ^ n = f ↔
          f + 2 ^ n * acc = v / 2 ^ ns.sum ∧ f < 2 ^ n := Nat.div_mod_unique (Nat.two_pow_pos n)
      rw [composeFrom, Option.ite_none_right_eq_some, ih, List.sum_cons, fieldsBelow, Nat.add_sub_cancel_left, hsplit,
        List.cons.injEq, Nat.mul_comm, Nat.add_comm _ f, eq_comm (b := f + _)]
      tauto

/-- R94: `compose` answers exactly the word that `decompose` cuts into the fields. -/
theorem compose_eq_some_iff {w : Word} {fs widths : List Nat} :
    compose fs widths = some w ↔ decompose w widths = .ok fs := by
  rw [decompose_eq_ok_iff, compose, Option.ite_none_right_eq_some]
  refine and_congr_right fun h32 => ?_
  rw [Option.map_eq_some_iff]
  simp only [composeFrom_eq_some_iff, h32]
  constructor
  · rintro ⟨v, ⟨hfields, htop⟩, rfl⟩
    have hv : v < 2 ^ 32 := (Nat.div_eq_zero_iff_lt (by decide)).mp htop
    rwa [BitVec.toNat_ofNat, Nat.mod_eq_of_lt hv]
  · exact fun hfields => ⟨w.toNat, ⟨hfields, Nat.div_eq_of_lt w.isLt⟩, BitVec.ofNat_toNat 32 w⟩

theorem decompose_of_sum_ne {widths : List Nat} (h : widths.sum ≠ 32) (w : Word) :
    decompose w widths = .error (.configurationInvariantViolation widths) := if_neg h

/-- R93: at every place, the number of fields and the field that `decompose` cuts there. -/
theorem decompose_middle (w : Word) (before : List Nat) (n : Nat) (after : List Nat)
    (h : (before ++ n :: after).sum = 32) :
    ∃ fs, decompose w (before ++ n :: after) = .ok fs ∧ fs.length = before.length + 1 + after.length ∧
      fs[before.length]? = some (w.toNat / 2 ^ after.sum % 2 ^ n) := by
  refine ⟨_, decompose_eq_ok_iff.mpr ⟨h, rfl⟩, ?_, ?_⟩
  · rw [length_fieldsBelow, List.length_append, List.length_cons, Nat.add_assoc, Nat.add_comm 1]
  · exact getElem?_fieldsBelow_middle w.toNat h

theorem sum_format_widths {f : Format} (h : f ≠ .none) : f.widths.sum = 32 := by
  cases f with
  | r | i | j => rfl
  | none => exact absurd rfl h

/-- Settles O7: the cut at every place, and both inverse directions from the one equivalence `compose_eq_some_iff`. -/
theorem composeInvertsDecompose : Obligations.ComposeInvertsDecompose :=
  ⟨decompose_middle, fun w _ h => decompose_of_sum_ne h w, fun _ => sum_format_widths,
    fun _ _ _ => compose_eq_some_iff.mpr, fun _ _ _ => compose_eq_some_iff.mp⟩

/-- Settles O8: both sides are the word shifted right by `lo`, cut to `hi - lo + 1` bits. -/
theorem bitsReadsTheRange : Obligations.BitsReadsTheRange := by
  intro hi lo w
  rw [bits, BitVec.extractLsb_toNat, Nat.shiftRight_eq_div_pow]

end Sys2Proof
end

section
/-!
R101's worked example, `addi $sp, $sp, -8`: the obligation AddiWorkedExampleWord.
-/

namespace Sys2Proof.Machine

theorem decodeMnemonic_of_assembleLine {c : Config} {t : List Char} {w : Word} (h : assembleLine c t = .ok w) :
    decodeMnemonic c t = decode c w := by
  rw [decodeMnemonic, h]

theorem assembleLine_addi_example : assembleLine config "addi $sp, $sp, -8".toList = .ok 0x23bdfff8 := by decide

theorem decode_addi_example : decode config 0x23bdfff8 = .ok (.addi 29 29 0xFFF8) := by decide

theorem sext32_addi_example : sext32 0xFFF8 = 0xFFFFFFF8 := by decide

/-- Settles O10: the text decodes as the word it assembles to. -/
theorem addiWorkedExampleWord : Obligations.AddiWorkedExampleWord :=
  ⟨assembleLine_addi_example, (decodeMnemonic_of_assembleLine assembleLine_addi_example).trans decode_addi_example,
    decode_addi_example, by decide, rfl, by decide, sext32_addi_example, by rw [sext32_addi_example]; decide⟩

end Sys2Proof.Machine
end

section
/-!
What the catalog entry of a word fixes (R97, R99, R100): the opcode and the funct it was found by, and which unused fields
make the word partially valid.
-/

namespace Sys2Proof.Machine

section Entry
variable {c : Config} {w : Word} {e : Entry}

/-- NOP's whole word has the opcode of the R-format entries too (R98). -/
theorem opcodeOf_of_entryOf (hc : c.Valid) (he : entryOf c w = some e) (hx : e ≠ .exit) : opcodeOf w = keyOpcode c e := by
  have ⟨_, _, _, _, _, _, _, _, _, hop, _⟩ := hc
  obtain ⟨rfl, rfl⟩ | ⟨-, -, hexit⟩ | ⟨-, -, -, -, hkey, -⟩ := entryOf_cases he
  · exact hop.symm
  · exact absurd hexit hx
  · exact hkey

theorem keyFunct_of_entryOf (he : entryOf c w = some e) (hr : e.format = .r) (hn : e ≠ .nop) :
    keyFunct c e = some (functOf w) := by
  obtain ⟨-, hnop⟩ | ⟨-, -, rfl⟩ | ⟨-, -, -, -, -, hfunct⟩ := entryOf_cases he
  · exact absurd hnop hn
  · cases hr
  · cases e with
    | nop => exact absurd rfl hn
    | sll | srl | sra | jr | add | sub | and | or | nor | slt => exact congrArg some (hfunct _ rfl).symm
    | j | beq | addi | ori | lw | sw | exit => cases hr

/-- R99: the flag, read from the unused fields of the entry. -/
theorem validityOf_beq_partiallyValid (he : entryOf c w = some e) :
    (validityOf c w == .partiallyValid) = e.unusedFields.any fun f => f.valueIn w != 0 := by
  have hnone : (violationsOf e w).isEmpty = !e.unusedFields.any fun f => f.valueIn w != 0 := by
    rw [violationsOf, Bool.eq_iff_iff]
    simp
  rw [validityOf, he]
  simp only [hnone]
  cases e.unusedFields.any fun f => f.valueIn w != 0 <;> rfl

theorem entry_of_operationOf {op : AluOp} (hop : operationOf e = some op) :
    e.format = .r ∧ rowOf e = rowR ∧ e ≠ .nop ∧ e ≠ .jr := by
  cases e with
  | add | sub | and | or | nor | slt | srl | sra => exact ⟨rfl, rfl, nofun, nofun⟩
  | nop | exit | sll | jr | j | beq | addi | ori | lw | sw => cases hop

end Entry

theorem toNat_bne_zero {n : Nat} (v : BitVec n) : (v.toNat != 0) = (v != 0) := by
  rw [Bool.eq_iff_iff, bne_iff_ne, bne_iff_ne, ← BitVec.toNat_ne_iff_ne]
  rfl

end Sys2Proof.Machine
end

section
/-!
The algorithm of R145 evaluated entry by entry (R149): one cycle on a word is the meaning of the instruction it decodes to.
The obligation StepReturnsWhetherHalted follows.
-/

namespace Sys2Proof.Machine

/-! ## An answer of the host's interface as an outcome of R12 -/

/-- The outcome that an answer stands for: a next state is `Halted` when its port `ended` says so. -/
def outcomeOf : Result → CycleResult
  | .next t => if t.out.ended == some .halted then .halted t else .executed t
  | .fault r => .stopped (.fault r)
  | .refused r => .stopped (.refused r)

theorem outcomeOf_result (e : Stop) : outcomeOf e.result = .stopped e := by
  cases e with
  | fault | refused => rfl

theorem outcomeOf_writeBack (row : ControlSignals) (pv : Bool) (rd : RegIndex) (v : Word) (s : State) :
    outcomeOf (writeBack row pv rd v s) = .executed ((s.setReg rd v).commit row .executed pv (s.pc + 4)) := rfl

theorem outcomeOf_transferTo (row : ControlSignals) (pv : Bool) (next : Word) (s : State) :
    outcomeOf (transferTo row pv next s) = .executed (s.commit row .executed pv next) := rfl

/-! ## The arms of the cycle -/

section Arms
variable {c : Config} {w : Word} {e : Entry} (s : State)

theorem cycleOn_unknown (he : entryOf c w = none) : cycleOn c w s = .stopped (.fault (.unknownInstruction w)) :=
  if_pos he

theorem cycleOn_exit (he : entryOf c w = some .exit) :
    cycleOn c w s = .halted (s.commit rowZero .halted false (s.pc + 4)) := by
  have hpv : (validityOf c w == .partiallyValid) = false := validityOf_beq_partiallyValid he
  simp [cycleOn, decoderOut, he, hpv]

variable (hc : c.Valid) (he : entryOf c w = some e)
include hc he

theorem controlRom_of_entryOf (hx : e ≠ .exit) : controlRom c (opcodeOf w) false = some (rowOf e) := by
  rw [opcodeOf_of_entryOf hc he hx, controlRom_key hc hx]

theorem cycleOn_r (hr : e.format = .r) :
    cycleOn c w s = cycleR c (decoderOut c w) (rowOf e) (validityOf c w == .partiallyValid) s := by
  have hx : e ≠ .exit := by rintro rfl; cases hr
  simp [cycleOn, decoderOut, he, hx, hr, controlRom_of_entryOf hc he hx]

theorem cycleOn_i (hi : e.format = .i) :
    cycleOn c w s = cycleI c (decoderOut c w) (rowOf e) (validityOf c w == .partiallyValid) s := by
  have hx : e ≠ .exit := by rintro rfl; cases hi
  simp [cycleOn, decoderOut, he, hx, hi, controlRom_of_entryOf hc he hx]

theorem cycleOn_j (hj : e.format = .j) :
    cycleOn c w s = cycleJ (decoderOut c w) (rowOf e) (validityOf c w == .partiallyValid) s := by
  have hx : e ≠ .exit := by rintro rfl; cases hj
  simp [cycleOn, decoderOut, he, hx, hj, controlRom_of_entryOf hc he hx]

/-! ## The groups of instructions that share one meaning -/

theorem aluDispatch_of_entryOf (hr : e.format = .r) (hn : e ≠ .nop) :
    aluDispatch c true false (functOf w) = operationOf e :=
  functOperation_key hc (keyFunct_of_entryOf he hr hn)

theorem functOf_ne_fnJr (hr : e.format = .r) (hn : e ≠ .nop) (hjr : e ≠ .jr) : functOf w ≠ c.fnJr :=
  mt (funct_jr_key hc (keyFunct_of_entryOf he hr hn)).mp hjr

/-- R145's ALU operation of the R arm, for the entries that have one. -/
theorem cycleOn_operation {op : AluOp} (hop : operationOf e = some op) :
    cycleOn c w s = .executed ((s.setReg (rdOf w)
      (alu op (cycleOperandsR (decoderOut c w) s).1 (cycleOperandsR (decoderOut c w) s).2)).commit rowR .executed
        (validityOf c w == .partiallyValid) (s.pc + 4)) := by
  obtain ⟨hr, hrow, hn, hjr⟩ := entry_of_operationOf hop
  have hfn := functOf_ne_fnJr hc he hr hn hjr
  have hd := (aluDispatch_of_entryOf hc he hr hn).trans hop
  rw [cycleOn_r s hc he hr, hrow]
  simp [cycleR, decoderOut, he, hn, hfn, hd, rowR]

theorem cycleOn_aluRegister {op : AluOp} (hop : operationOf e = some op) (ht : e.type = .arithmetic)
    (hu : e.unusedFields = [.shamt]) :
    cycleOn c w s = outcomeOf (aluRegister op (rsOf w) (rtOf w) (rdOf w) (shamtOf w) s) := by
  have hpv : (validityOf c w == .partiallyValid) = (shamtOf w != 0) := by
    simp [validityOf_beq_partiallyValid he, hu, FieldName.valueIn, toNat_bne_zero]
  rw [cycleOn_operation s hc he hop, hpv, aluRegister, outcomeOf_writeBack]
  simp [cycleOperandsR, decoderOut, he, ht]

theorem cycleOn_aluShift {op : AluOp} (hop : operationOf e = some op) (ht : e.type = .shift)
    (hu : e.unusedFields = [.rs]) :
    cycleOn c w s = outcomeOf (aluShift op (rsOf w) (rtOf w) (rdOf w) (shamtOf w) s) := by
  have hpv : (validityOf c w == .partiallyValid) = (rsOf w != 0) := by
    simp [validityOf_beq_partiallyValid he, hu, FieldName.valueIn, toNat_bne_zero]
  rw [cycleOn_operation s hc he hop, hpv, aluShift, outcomeOf_writeBack]
  simp [cycleOperandsR, decoderOut, he, ht]

/-- The I entries have no unused field, so their words are fully valid. -/
theorem cycleOn_i_fullyValid (hi : e.format = .i) :
    cycleOn c w s = cycleI c (decoderOut c w) (rowOf e) false s := by
  have hu : e.unusedFields = [] := by
    cases e with
    | beq | addi | ori | lw | sw => rfl
    | nop | sll | srl | sra | jr | add | sub | and | or | nor | slt | j | exit => cases hi
  rw [cycleOn_i s hc he hi, validityOf_beq_partiallyValid he, hu, List.any_nil]

theorem cycleOn_aluImmediate (hi : e.format = .i) (hrow : rowOf e = rowImm) :
    cycleOn c w s = outcomeOf (aluImmediate (rsOf w) (rtOf w) (immOf w) s) := by
  rw [cycleOn_i_fullyValid s hc he hi, hrow]
  rfl

end Arms

/-! ## The remaining instructions -/

section Single
variable {w : Word} (s : State)

theorem config_valid : config.Valid := by decide

theorem cycleOn_nop (he : entryOf config w = some .nop) : cycleOn config w s = outcomeOf (execNop s) := by
  rw [cycleOn_r s config_valid he rfl, validityOf_beq_partiallyValid he]
  exact if_pos he

theorem cycleOn_sll (he : entryOf config w = some .sll) :
    cycleOn config w s = outcomeOf (execSll (rsOf w) (rtOf w) (rdOf w) (shamtOf w) s) := by
  have ho : opcodeOf w = config.opRtype := opcodeOf_of_entryOf config_valid he nofun
  have hf : functOf w = config.fnSll := (Option.some.inj (keyFunct_of_entryOf he rfl nofun)).symm
  have hjr : functOf w ≠ config.fnJr := functOf_ne_fnJr config_valid he rfl nofun nofun
  have hd : aluDispatch config true false (functOf w) = none := aluDispatch_of_entryOf config_valid he rfl nofun
  rw [cycleOn_r s config_valid he rfl, execSll, ← ho, ← hf]
  simp [cycleR, decoderOut, he, hjr, hd, rowOf, rowR, outcomeOf]

theorem cycleOn_jr (he : entryOf config w = some .jr) :
    cycleOn config w s = outcomeOf (execJr (rsOf w) (rtOf w) (rdOf w) (shamtOf w) s) := by
  have hfn : functOf w = config.fnJr := (Option.some.inj (keyFunct_of_entryOf he rfl nofun)).symm
  have hpv : (validityOf config w == .partiallyValid) = (rtOf w != 0 || rdOf w != 0 || shamtOf w != 0) := by
    simp [validityOf_beq_partiallyValid he, Entry.unusedFields, FieldName.valueIn, toNat_bne_zero, Bool.or_assoc]
  rw [cycleOn_r s config_valid he rfl, hpv]
  simp [cycleR, decoderOut, he, hfn, execJr, outcomeOf_transferTo, rowOf, rowR, jrTarget]

theorem cycleOn_execJ (he : entryOf config w = some .j) :
    cycleOn config w s = outcomeOf (execJ (targetOf w) s) := by
  rw [cycleOn_j s config_valid he rfl, validityOf_beq_partiallyValid he]
  rfl

theorem cycleOn_beq (he : entryOf config w = some .beq) :
    cycleOn config w s = outcomeOf (execBeq (rsOf w) (rtOf w) (immOf w) s) := by
  rw [cycleOn_i_fullyValid s config_valid he rfl, execBeq, outcomeOf_transferTo]
  simp only [cycleI, aluDispatch, decoderOut, rowOf, rowBeq, branchTaken, branchTarget, true_and]
  by_cases hz : isZero (alu .subtract (s.reg (rsOf w)) (s.reg (rtOf w))) = true
  · simp [hz]
  · simp [hz]

theorem cycleOn_lw (he : entryOf config w = some .lw) :
    cycleOn config w s = outcomeOf (execLw (rsOf w) (rtOf w) (immOf w) s) := by
  rw [cycleOn_i_fullyValid s config_valid he rfl, execLw, effectiveAddress]
  simp only [cycleI, aluDispatch, decoderOut, rowOf, rowLw, if_true]
  cases memRead config (alu .add (s.reg (rsOf w)) (sext32 (immOf w))) s with
  | ok v => rfl
  | error e => exact (outcomeOf_result e).symm

theorem cycleOn_sw (he : entryOf config w = some .sw) :
    cycleOn config w s = outcomeOf (execSw (rsOf w) (rtOf w) (immOf w) s) := by
  rw [cycleOn_i_fullyValid s config_valid he rfl, execSw, effectiveAddress]
  simp only [cycleI, aluDispatch, decoderOut, rowOf, rowSw, if_true]
  cases memWrite config (alu .add (s.reg (rsOf w)) (sext32 (immOf w))) (s.reg (rtOf w)) s with
  | ok m => rfl
  | error e => exact (outcomeOf_result e).symm

end Single

/-- R149 for a known word: the cycle is the meaning of the decoded instruction. -/
theorem cycleOn_eq_outcomeOf_exec {w : Word} {e : Entry} (he : entryOf config w = some e) (s : State) :
    cycleOn config w s = outcomeOf (exec (ofFields e w) s) := by
  have hc := config_valid
  cases e with
  | nop => exact cycleOn_nop s he
  | exit => exact cycleOn_exit s he
  | sll => exact cycleOn_sll s he
  | srl | sra => exact cycleOn_aluShift s hc he rfl rfl rfl
  | jr => exact cycleOn_jr s he
  | add | sub | and | or | nor | slt => exact cycleOn_aluRegister s hc he rfl rfl rfl
  | j => exact cycleOn_execJ s he
  | beq => exact cycleOn_beq s he
  | addi | ori => exact cycleOn_aluImmediate s hc he rfl rfl
  | lw => exact cycleOn_lw s he
  | sw => exact cycleOn_sw s he

/-- R149: a cycle is the outcome of a step, for every state. -/
theorem cycle_eq_outcomeOf_step (s : State) : cycle config s = outcomeOf (step s) := by
  rw [cycle, step, fetchDecode]
  cases fetch config s.pc s with
  | error e => exact (outcomeOf_result e).symm
  | ok w =>
    cases he : entryOf config w with
    | none => simp [decode, he, cycleOn_unknown s he, Stop.result, outcomeOf]
    | some e => simp [decode_of_entryOf he, cycleOn_eq_outcomeOf_exec he s]

/-- Settles O55: the host's step reads `Halted` from the port `ended`, as `outcomeOf` does, and a step has the outcome of
the cycle. -/
theorem stepReturnsWhetherHalted : Obligations.StepReturnsWhetherHalted := by
  intro s
  rw [hostStep, cycle_eq_outcomeOf_step]
  cases step s with
  | next t => cases h : t.out.ended == some .halted <;> simp [outcomeOf, h]
  | fault | refused => rfl

end Sys2Proof.Machine
end

section
/-!
Encoding and decoding are inverse for every valid choice of the parameters (R92, R97, R98): the obligations
DecodeInvertsEncode and EncodeInvertsDecode.
-/

namespace Sys2Proof

/-! ## From an instruction to its word and back -/

section Encode
variable {c : Config} {i : Instr}

theorem ofFields_encode (c : Config) (i : Instr) : ofFields i.entry (encode c i) = i := by
  cases i with
  | nop | exit => rfl
  | sll | srl | sra | jr | add | sub | and | or | nor | slt => simp [Instr.entry, encode, ofFields]
  | j => simp [Instr.entry, encode, ofFields]
  | beq | addi | ori | lw | sw => simp [Instr.entry, encode, ofFields]

theorem opcodeOf_encode (hn : i.entry ≠ .nop) (hx : i.entry ≠ .exit) :
    opcodeOf (encode c i) = keyOpcode c i.entry := by
  cases i with
  | nop => exact absurd rfl hn
  | exit => exact absurd rfl hx
  | sll | srl | sra | jr | add | sub | and | or | nor | slt => exact opcodeOf_rWord ..
  | j => exact opcodeOf_jWord ..
  | beq | addi | ori | lw | sw => exact opcodeOf_iWord ..

theorem functOf_encode {fn : Funct} (hf : keyFunct c i.entry = some fn) : functOf (encode c i) = fn := by
  cases i with
  | nop | exit | j | beq | addi | ori | lw | sw => cases hf
  | sll | srl | sra | jr | add | sub | and | or | nor | slt => cases hf; exact functOf_rWord ..

/-- R98: the lookup finds SLL under the key of the zero word, so a zero word spells an all-zero SLL, which is ill-formed. -/
theorem encode_ne_zero (hc : c.Valid) (hwf : i.wf = true) (hn : i.entry ≠ .nop) (hx : i.entry ≠ .exit) :
    encode c i ≠ 0 := by
  intro h0
  have ⟨_, _, _, _, _, _, _, _, _, hop, hfn⟩ := hc
  have hi : lookup c (opcodeOf 0) (functOf 0) = some i.entry := by
    rw [← h0, opcodeOf_encode hn hx]
    exact lookup_key hc hn hx fun _ => functOf_encode
  have hsll : lookup c (keyOpcode c .sll) c.fnSll = some .sll :=
    lookup_key hc nofun nofun fun _ hf => Option.some.inj hf
  have hkey : keyOpcode c .sll = opcodeOf 0 ∧ c.fnSll = functOf 0 := ⟨hop, hfn⟩
  rw [hkey.1, hkey.2, hi] at hsll
  have hentry : i.entry = .sll := Option.some.inj hsll
  have hzero : i = ofFields .sll 0 := by rw [← ofFields_encode c i, hentry, h0]
  rw [hzero] at hwf
  exact absurd hwf (by decide)

theorem entryOf_encode (hc : c.Valid) (hwf : i.wf = true) : entryOf c (encode c i) = some i.entry := by
  by_cases hn : i.entry = .nop
  · have : i = .nop := by rw [← ofFields_encode c i, hn]; rfl
    subst this
    exact entryOf_zero c
  by_cases hx : i.entry = .exit
  · have : i = .exit := by rw [← ofFields_encode c i, hx]; rfl
    subst this
    have ⟨_, _, _, _, _, hhalt, _⟩ := hc
    exact (if_neg hhalt).trans (if_pos rfl)
  · exact entryOf_key hc hn hx (encode_ne_zero hc hwf hn hx) (opcodeOf_encode hn hx) fun _ => functOf_encode

/-- A well-formed instruction is what its word decodes to. -/
theorem decode_encode (hc : c.Valid) (hwf : i.wf = true) : decode c (encode c i) = .ok i := by
  rw [decode_of_entryOf (entryOf_encode hc hwf), ofFields_encode]

end Encode

/-- Settles O2: the word of an instruction selects its entry, and carries every field of its format. -/
theorem decodeInvertsEncode : Obligations.DecodeInvertsEncode := fun _ hc _ => decode_encode hc

/-! ## From a word to its instruction and back -/

section Decode
variable {c : Config} {w : Word} {e : Entry}

theorem rWord_fields (ho : opcodeOf w = c.opRtype) : rWord c (rsOf w) (rtOf w) (rdOf w) (shamtOf w) (functOf w) = w := by
  rw [rWord, ← ho, word_eq_rFields]

theorem iWord_fields {op : Opcode} (ho : opcodeOf w = op) : iWord op (rsOf w) (rtOf w) (immOf w) = w := by
  rw [iWord, ← ho, word_eq_iFields]

theorem jWord_fields {op : Opcode} (ho : opcodeOf w = op) : jWord op (targetOf w) = w := by
  rw [jWord, ← ho, word_eq_jFields]

/-- The word of the fields read from a known word is that word: its key holds the remaining bits. -/
theorem encode_ofFields (he : entryOf c w = some e) : encode c (ofFields e w) = w := by
  obtain ⟨rfl, rfl⟩ | ⟨-, rfl, rfl⟩ | ⟨-, -, hn, hx, ho, hf⟩ := entryOf_cases he
  · rfl
  · rfl
  · cases e with
    | nop => exact absurd rfl hn
    | exit => exact absurd rfl hx
    | sll | srl | sra | jr | add | sub | and | or | nor | slt =>
      rw [ofFields, encode, ← hf _ rfl]
      exact rWord_fields ho
    | j => exact jWord_fields ho
    | beq | addi | ori | lw | sw => exact iWord_fields ho

/-- R98: an all-zero SLL would be the zero word's, and that word is the no-op. -/
theorem wf_ofFields (hc : c.Valid) (he : entryOf c w = some e) : (ofFields e w).wf = true := by
  cases e with
  | sll =>
    by_contra hwf
    have hall : rsOf w = 0 ∧ rtOf w = 0 ∧ rdOf w = 0 ∧ shamtOf w = 0 := by
      simpa [ofFields, Instr.wf, and_assoc] using hwf
    obtain ⟨hrs, hrt, hrd, hshamt⟩ := hall
    have ⟨_, _, _, _, _, _, _, _, _, hop, hfn⟩ := hc
    have hw : w = 0 := by
      rw [← encode_ofFields he, ofFields, hrs, hrt, hrd, hshamt, encode, rWord, hop, hfn]
      rfl
    rw [hw, entryOf_zero] at he
    cases he
  | nop | exit | srl | sra | jr | add | sub | and | or | nor | slt | j | beq | addi | ori | lw | sw => rfl

end Decode

/-- Settles O3: a known word selects the entry whose key it has, and its remaining bits are the fields. -/
theorem encodeInvertsDecode : Obligations.EncodeInvertsDecode := by
  intro c hc w i hi
  obtain ⟨e, he, rfl⟩ := entryOf_of_decode hi
  exact ⟨wf_ofFields hc he, encode_ofFields he⟩

end Sys2Proof
end

section
/-!
A step is the cycle of R145 (R149), and the invariant of a state between cycles (R33, R38, R61) is kept by every step: the
obligations StepRefinesTheGenericCycle and StepKeepsTheInvariant.
-/

namespace Sys2Proof.Machine

theorem result_outcomeOf (r : Result) : (outcomeOf r).result = r := by
  cases r with
  | next t => cases h : t.out.ended == some .halted <;> simp [outcomeOf, h, CycleResult.result]
  | fault | refused => rfl

/-- Settles O36: the cycle is the outcome that the step's answer stands for, and that outcome gives the answer back. -/
theorem stepRefinesTheGenericCycle : Obligations.StepRefinesTheGenericCycle := by
  intro s
  rw [cycle_eq_outcomeOf_step, result_outcomeOf]

/-! ## Every next address is word-aligned when `pc` is (R38, R264) -/

theorem add_four_aligned {pc : Word} (h : pc.toNat % 4 = 0) : (pc + 4).toNat % 4 = 0 := by
  bv_omega

theorem shiftLeft_two_aligned (v : Word) : (v <<< 2).toNat % 4 = 0 := by
  bv_omega

theorem branchTarget_aligned {pc : Word} (h : pc.toNat % 4 = 0) (imm : BitVec 16) :
    (branchTarget pc imm).toNat % 4 = 0 := by
  have := shiftLeft_two_aligned (sext32 imm)
  rw [branchTarget, BitVec.toNat_add]
  omega

theorem jumpTarget_aligned (pc : Word) (target : BitVec 26) : (jumpTarget pc target).toNat % 4 = 0 := by
  rw [jumpTarget_append, BitVec.toNat_append]
  simp [Nat.shiftLeft_eq]

theorem NextShape.pc_aligned {s t : State} (h : NextShape s t) (hs : s.pc.toNat % 4 = 0) : t.pc.toNat % 4 = 0 := by
  obtain hpc | ⟨imm, hpc⟩ | ⟨target, hpc⟩ | ⟨v, hpc⟩ := h.pc <;> rw [hpc]
  · exact add_four_aligned hs
  · exact branchTarget_aligned hs imm
  · exact jumpTarget_aligned s.pc target
  · exact shiftLeft_two_aligned v

/-! ## The other parts of the invariant -/

theorem NextShape.zeroSlot {s t : State} (h : NextShape s t) : t.regs.get 0 = s.regs.get 0 := by
  obtain hregs | ⟨r, v, hregs⟩ := h.regs <;> rw [hregs]
  exact writeRegs_zeroSlot s.regs r v

/-- R61: a store is within the capacity and keeps the canonical form. -/
theorem NextShape.dmem_wf {s t : State} (h : NextShape s t) (hwf : Memory.wf s.dmem = true)
    (hb : keysBelow config.dmemBytes s.dmem = true) :
    Memory.wf t.dmem = true ∧ keysBelow config.dmemBytes t.dmem = true := by
  obtain hmem | ⟨a, v, hin, hmem⟩ := h.dmem <;> rw [hmem]
  · exact ⟨hwf, hb⟩
  · exact ⟨writeWord_wf hwf _ _ _, writeWord_keysBelow hin hb _ _⟩

theorem NextShape.inv {s t : State} (h : NextShape s t) (hs : s.Inv config) : t.Inv config := by
  obtain ⟨hwf, hb⟩ := h.dmem_wf hs.dmemCanonical hs.dmemBacked
  exact ⟨hwf, hb, h.imem ▸ hs.imemCanonical, h.imem ▸ hs.imemBacked, h.zeroSlot.trans hs.zeroSlot,
    h.pc_aligned hs.pcAligned⟩

/-- Settles O41: a step executes one instruction, and `NextShape` says all that an instruction can do. -/
theorem stepKeepsTheInvariant : Obligations.StepKeepsTheInvariant := by
  intro s t hs h
  obtain ⟨i, -, hi⟩ := step_next h
  exact (exec_next_shape hi).inv hs

end Sys2Proof.Machine
end

section
/-!
One `step_en` edge of the wired blocks is one cycle of R145 (R130 to R136, R147): the edge either stops with its fault or
commits, and each group of instructions does there what the cycle does. The obligation WiredBlocksRefineTheCycle.
-/

namespace Sys2Proof.Machine

section DecoderOut
variable (c : Config) (w : Word)

@[simp] theorem decoderOut_entry : (decoderOut c w).entry = entryOf c w := rfl
@[simp] theorem decoderOut_opcode : (decoderOut c w).opcode = opcodeOf w := rfl
@[simp] theorem decoderOut_rs : (decoderOut c w).rs = rsOf w := rfl
@[simp] theorem decoderOut_rt : (decoderOut c w).rt = rtOf w := rfl
@[simp] theorem decoderOut_rd : (decoderOut c w).rd = rdOf w := rfl
@[simp] theorem decoderOut_shamt : (decoderOut c w).shamt = shamtOf w := rfl
@[simp] theorem decoderOut_funct : (decoderOut c w).funct = functOf w := rfl
@[simp] theorem decoderOut_imm16 : (decoderOut c w).imm16 = immOf w := rfl
@[simp] theorem decoderOut_target : (decoderOut c w).target = targetOf w := rfl
@[simp] theorem decoderOut_validity : (decoderOut c w).validity = validityOf c w := rfl

variable {c w} {e : Entry}

theorem decoderOut_format (he : entryOf c w = some e) : (decoderOut c w).format = e.format := by
  rw [decoderOut, he]; rfl

end DecoderOut

/-! ## The signals of an edge -/

section Signals
variable (c : Config) (w : Word) (s : State)

/-- The ROM's answer on the fetched word. -/
def edgeRom : Option ControlSignals := controlRom c (opcodeOf w) (entryOf c w == some .exit)

/-- The ALU's answer on the fetched word. -/
def edgeAlu : Option Word :=
  datapathAlu c (decoderOut c w) ((edgeRom c w).getD rowZero) (s.reg (rsOf w)) (s.reg (rtOf w))

/-- The fault of the edge, with its info word. -/
def edgeFault : Option (FaultKind × Word) := datapathFault c (decoderOut c w) s.pc w (edgeRom c w) (edgeAlu c w s)

/-- The state that an edge without a fault commits, under the control signals `sig` and the ALU result `res`. -/
def edgeCommit (sig : ControlSignals) (res : Word) : State where
  regs :=
    if sig.regWrite && !bypassesAlu (decoderOut c w) then
      writeRegs s.regs (if (decoderOut c w).format = .r then rdOf w else rtOf w)
        (if sig.memToReg then dRdata c s.dmem res else res)
    else s.regs
  pc := nextAddress c (decoderOut c w) sig s.pc (s.reg (rsOf w)) res
  imem := s.imem
  dmem := if sig.memWrite then writeWord c.byteOrder s.dmem res.toNat (s.reg (rtOf w)) else s.dmem
  ctrl := sig
  out := ⟨some (if entryOf c w = some .exit then .halted else .executed), validityOf c w == .partiallyValid⟩

end Signals

/-- The edge on state `s` does what the outcome `r` says, state and ports. -/
def EdgeDoes (c : Config) (s : State) (r : CycleResult) : Prop :=
  coreTick c CoreIn.step s = (r.stateAfter s, r.ports (s.slot (s.pc.toNat / 4)))

section Edge
variable {c : Config} {w : Word} {e : Entry} {s : State} (hw : s.slot (s.pc.toNat / 4) = w)
include hw

/-- R304: an edge with a fault leaves the whole state and reports the fault. -/
theorem coreTick_of_fault {k : FaultKind} {info : Word} (h : edgeFault c w s = some (k, info)) :
    coreTick c CoreIn.step s = (s, ⟨false, false, some k, info, false⟩) := by
  simp only [edgeFault, edgeAlu, edgeRom, State.reg] at h
  rw [coreTick_step c s w hw.symm]
  simp [h]

/-- R146: an edge without a fault commits and reports how the cycle ended. -/
theorem coreTick_of_no_fault (h : edgeFault c w s = none) :
    coreTick c CoreIn.step s =
      (edgeCommit c w s ((edgeRom c w).getD rowZero) ((edgeAlu c w s).getD 0),
        ⟨entryOf c w != some .exit, entryOf c w == some .exit, none, 0, validityOf c w == .partiallyValid⟩) := by
  simp only [edgeFault, edgeAlu, edgeRom, State.reg] at h
  rw [coreTick_step c s w hw.symm]
  simp only [decoderOut_opcode, decoderOut_entry, decoderOut_rs, decoderOut_rt, h]
  refine Prod.ext rfl ?_
  by_cases hx : entryOf c w = some .exit
  · simp [hx]
  · simp [hx]

theorem edgeDoes_stopped {k : FaultKind} {info : Word} {f : Fault} (h : edgeFault c w s = some (k, info))
    (hports : (CycleResult.stopped (.fault f)).ports w = ⟨false, false, some k, info, false⟩) :
    EdgeDoes c s (.stopped (.fault f)) := by
  rw [EdgeDoes, coreTick_of_fault hw h, hw, hports]
  rfl

theorem edgeDoes_of_no_fault (h : edgeFault c w s = none) :
    EdgeDoes c s
      (let t := edgeCommit c w s ((edgeRom c w).getD rowZero) ((edgeAlu c w s).getD 0)
       if entryOf c w = some .exit then .halted t else .executed t) := by
  rw [EdgeDoes, coreTick_of_no_fault hw h]
  by_cases hx : entryOf c w = some .exit
  · simp [hx, CycleResult.stateAfter, CycleResult.ports, edgeCommit]
  · simp [hx, CycleResult.stateAfter, CycleResult.ports, edgeCommit]

end Edge

/-! ## The edge on a known word -/

section Known
variable {c : Config} {w : Word} {e : Entry} {s : State} (hc : c.Valid) (he : entryOf c w = some e)
include he

theorem bypassesAlu_of_entryOf : bypassesAlu (decoderOut c w) = (e == .j || e == .exit || e == .nop || e == .jr) := by
  simp [bypassesAlu, he]

/-- R264: the next address where there is no jump and no branch. -/
theorem nextAddress_add_four (hj : e ≠ .j) (hjr : e ≠ .jr) {sig : ControlSignals} (hb : sig.branch = false)
    (pc rd1 res : Word) : nextAddress c (decoderOut c w) sig pc rd1 res = pc + 4 := by
  simp [nextAddress, he, hj, hjr, hb]

include hc

theorem edgeRom_of_entryOf : edgeRom c w = some (rowOf e) := by
  rw [edgeRom, he]
  by_cases hx : e = .exit
  · subst hx; rfl
  · rw [beq_eq_false_iff_ne.mpr fun h => hx (Option.some.inj h)]
    exact controlRom_of_entryOf hc he hx

/-- The ALU of an R entry that uses it takes the operands of the cycle (R143). -/
theorem edgeAlu_r (hr : e.format = .r) (hn : e ≠ .nop) :
    edgeAlu c w s = (operationOf e).map fun op =>
      alu op (cycleOperandsR (decoderOut c w) s).1 (cycleOperandsR (decoderOut c w) s).2 := by
  have hrow : rowOf e = rowR := by
    cases e with
    | nop | sll | srl | sra | jr | add | sub | and | or | nor | slt => rfl
    | j | beq | addi | ori | lw | sw | exit => cases hr
  rw [edgeAlu, edgeRom_of_entryOf hc he, Option.getD_some, hrow, datapathAlu, decoderOut_format he, hr]
  simp only [rowR, decoderOut_funct, aluDispatch_of_entryOf hc he hr hn, cycleOperandsR]
  by_cases ht : (decoderOut c w).type = some .shift
  · simp [ht]
  · simp [ht]

/-- The ALU of an I entry is dispatched by ALUOp alone (R141). -/
theorem edgeAlu_i (hi : e.format = .i) :
    edgeAlu c w s = (aluDispatch c (rowOf e).aluOp1 (rowOf e).aluOp0 (functOf w)).map fun op =>
      alu op (s.reg (rsOf w)) (if (rowOf e).aluSrc then sext32 (immOf w) else s.reg (rtOf w)) := by
  rw [edgeAlu, edgeRom_of_entryOf hc he, Option.getD_some, datapathAlu, decoderOut_format he, hi]
  simp

/-- R240: under the rows of LW and SW the ALU's result is the effective address. -/
theorem edgeAlu_effectiveAddress (hrow : rowOf e = rowLw ∨ rowOf e = rowSw) (hi : e.format = .i) :
    edgeAlu c w s = some (alu .add (s.reg (rsOf w)) (sext32 (immOf w))) := by
  rw [edgeAlu_i hc he hi]
  obtain hrow | hrow := hrow <;> rw [hrow] <;> rfl

variable (hin : s.pc.toNat < c.imemBytes)
include hin

theorem edgeFault_bypass (hb : bypassesAlu (decoderOut c w) = true) : edgeFault c w s = none := by
  rw [edgeFault, edgeRom_of_entryOf hc he]
  simp [datapathFault, iOob, hin, he, hb]

theorem edgeFault_of_edgeAlu_none (hb : bypassesAlu (decoderOut c w) = false) (h : edgeAlu c w s = none) :
    edgeFault c w s = some (.unsupportedOpcode, w) := by
  rw [edgeFault, edgeRom_of_entryOf hc he, h]
  simp [datapathFault, iOob, hin.not_ge, he, hb]

theorem edgeFault_of_edgeAlu_some (hb : bypassesAlu (decoderOut c w) = false) {a : Word}
    (h : edgeAlu c w s = some a) :
    edgeFault c w s = if dOob c (rowOf e).memRead (rowOf e).memWrite a then some (.outOfBoundsData, a) else none := by
  rw [edgeFault, edgeRom_of_entryOf hc he, h]
  simp [datapathFault, iOob, hin.not_ge, he, hb]

/-! ## Each group of instructions -/

variable (hw : s.slot (s.pc.toNat / 4) = w)
include hw

theorem edgeDoes_bypass (hb : bypassesAlu (decoderOut c w) = true) (hx : e ≠ .exit) :
    EdgeDoes c s (.executed (s.commit (rowOf e) .executed (validityOf c w == .partiallyValid)
      (nextAddress c (decoderOut c w) (rowOf e) s.pc (s.reg (rsOf w)) ((edgeAlu c w s).getD 0)))) := by
  have hcommit := edgeDoes_of_no_fault hw (edgeFault_bypass hc he hin hb)
  have hm : (rowOf e).memWrite = false := by
    rw [bypassesAlu_of_entryOf he] at hb
    cases e with
    | nop | jr | j | exit => rfl
    | sll | srl | sra | add | sub | and | or | nor | slt | beq | addi | ori | lw | sw => cases hb
  simpa [edgeRom_of_entryOf hc he, edgeCommit, hb, hm, he, hx, State.commit] using hcommit

theorem edgeDoes_exit (hx : e = .exit) : EdgeDoes c s (cycleOn c w s) := by
  subst hx
  have hb := bypassesAlu_of_entryOf he
  have hcommit := edgeDoes_of_no_fault hw (edgeFault_bypass hc he hin hb)
  have hpv : (validityOf c w == .partiallyValid) = false := validityOf_beq_partiallyValid he
  rw [cycleOn_exit s he]
  rw [edgeRom_of_entryOf hc he] at hcommit
  simpa [edgeCommit, hb, he, rowOf, rowZero, nextAddress, hpv, State.commit] using hcommit

theorem edgeDoes_nop (hn : e = .nop) : EdgeDoes c s (cycleOn c w s) := by
  subst hn
  have hedge := edgeDoes_bypass hc he hin hw (bypassesAlu_of_entryOf he) nofun
  rw [nextAddress_add_four he nofun nofun rfl] at hedge
  rw [cycleOn_r s hc he rfl]
  simpa [cycleR, he] using hedge

theorem edgeDoes_j (hj : e = .j) : EdgeDoes c s (cycleOn c w s) := by
  subst hj
  have hedge := edgeDoes_bypass hc he hin hw (bypassesAlu_of_entryOf he) nofun
  rw [nextAddress, decoderOut_entry, if_pos he] at hedge
  rw [cycleOn_j s hc he rfl]
  exact hedge

theorem edgeDoes_jr (hjr : e = .jr) : EdgeDoes c s (cycleOn c w s) := by
  subst hjr
  have hfn : functOf w = c.fnJr := (Option.some.inj (keyFunct_of_entryOf he rfl nofun)).symm
  have hedge := edgeDoes_bypass hc he hin hw (bypassesAlu_of_entryOf he) nofun
  rw [nextAddress, decoderOut_entry, he, if_neg nofun, if_pos rfl] at hedge
  rw [cycleOn_r s hc he rfl]
  simpa [cycleR, he, hfn, rowOf, rowR, jrTarget] using hedge

/-- SLL uses the ALU and its funct has no operation there (R203). -/
theorem edgeDoes_sll (hsll : e = .sll) : EdgeDoes c s (cycleOn c w s) := by
  subst hsll
  have hjr : functOf w ≠ c.fnJr := functOf_ne_fnJr hc he rfl nofun nofun
  have hd : aluDispatch c true false (functOf w) = none := aluDispatch_of_entryOf hc he rfl nofun
  have hfault := edgeFault_of_edgeAlu_none hc he hin (bypassesAlu_of_entryOf he) (edgeAlu_r hc he rfl nofun)
  rw [cycleOn_r s hc he rfl]
  simpa [cycleR, he, hjr, hd, rowOf, rowR] using edgeDoes_stopped hw hfault rfl

/-- The edge of an instruction that writes the ALU's result and touches no data memory. -/
theorem edgeDoes_writes (hb : bypassesAlu (decoderOut c w) = false) {a : Word} (h : edgeAlu c w s = some a)
    (hrow : rowOf e = rowR ∨ rowOf e = rowImm) :
    EdgeDoes c s (.executed ((s.setReg (if e.format = .r then rdOf w else rtOf w) a).commit (rowOf e) .executed
      (validityOf c w == .partiallyValid) (s.pc + 4))) := by
  have hsig : (rowOf e).memRead = false ∧ (rowOf e).memWrite = false ∧ (rowOf e).memToReg = false ∧
      (rowOf e).branch = false ∧ (rowOf e).regWrite = true := by
    obtain hrow | hrow := hrow <;> simp [hrow, rowR, rowImm]
  obtain ⟨hmr, hmw, hload, hbr, hwr⟩ := hsig
  obtain ⟨⟨⟨hj, hx⟩, -⟩, hjr⟩ : ((e ≠ .j ∧ e ≠ .exit) ∧ e ≠ .nop) ∧ e ≠ .jr := by
    simpa [bypassesAlu_of_entryOf he] using hb
  have hcommit := edgeDoes_of_no_fault hw
    ((edgeFault_of_edgeAlu_some hc he hin hb h).trans (by simp [dOob, hmr, hmw]))
  simpa [edgeRom_of_entryOf hc he, edgeCommit, h, hb, hmw, hload, hwr, he, hx, decoderOut_format he,
    nextAddress_add_four he hj hjr hbr, State.commit, State.setReg] using hcommit

theorem edgeDoes_operation {op : AluOp} (hop : operationOf e = some op) : EdgeDoes c s (cycleOn c w s) := by
  obtain ⟨hr, hrow, hn, hjr⟩ := entry_of_operationOf hop
  have hb : bypassesAlu (decoderOut c w) = false := by
    rw [bypassesAlu_of_entryOf he]
    cases e with
    | nop => exact absurd rfl hn
    | jr => exact absurd rfl hjr
    | sll | srl | sra | add | sub | and | or | nor | slt => rfl
    | j | beq | addi | ori | lw | sw | exit => cases hr
  have halu := edgeAlu_r (s := s) hc he hr hn
  rw [hop, Option.map_some] at halu
  have hedge := edgeDoes_writes hc he hin hw hb halu (.inl hrow)
  rw [if_pos hr, hrow] at hedge
  rwa [cycleOn_operation s hc he hop]

theorem edgeDoes_immediate (hi : e.format = .i) (hrow : rowOf e = rowImm) : EdgeDoes c s (cycleOn c w s) := by
  have hb : bypassesAlu (decoderOut c w) = false := by
    rw [bypassesAlu_of_entryOf he]
    cases e with
    | nop | j | jr | exit => cases hi
    | sll | srl | sra | add | sub | and | or | nor | slt | beq | addi | ori | lw | sw => rfl
  have halu := edgeAlu_i (s := s) hc he hi
  rw [hrow] at halu
  have hedge := edgeDoes_writes hc he hin hw hb halu (.inr hrow)
  rw [if_neg (by simp [hi]), hrow] at hedge
  rw [cycleOn_i s hc he hi, hrow]
  exact hedge

theorem edgeDoes_beq (hbeq : e = .beq) : EdgeDoes c s (cycleOn c w s) := by
  subst hbeq
  have hb := bypassesAlu_of_entryOf he
  have halu := edgeAlu_i (s := s) hc he rfl
  have hcommit := edgeDoes_of_no_fault hw (edgeFault_of_edgeAlu_some hc he hin hb halu)
  rw [halu, edgeRom_of_entryOf hc he] at hcommit
  rw [cycleOn_i s hc he rfl]
  simpa [cycleI, edgeCommit, aluDispatch, he, rowOf, rowBeq, nextAddress, branchTarget, State.commit] using hcommit

theorem edgeDoes_lw (hp : c.misaligned = .perform) (hlw : e = .lw) : EdgeDoes c s (cycleOn c w s) := by
  subst hlw
  have hb := bypassesAlu_of_entryOf he
  have halu := edgeAlu_effectiveAddress (s := s) hc he (.inl rfl) rfl
  have hfault := edgeFault_of_edgeAlu_some hc he hin hb halu
  rw [cycleOn_i s hc he rfl]
  simp only [cycleI, aluDispatch, rowOf, rowLw, decoderOut_rs, decoderOut_imm16, if_true, memRead_perform hp]
  by_cases hbound : dataInBounds c (alu .add (s.reg (rsOf w)) (sext32 (immOf w)))
  · have hcommit := edgeDoes_of_no_fault hw (hfault.trans (by simp [dOob, rowOf, rowLw, hbound]))
    rw [halu, edgeRom_of_entryOf hc he] at hcommit
    simpa [hbound, edgeCommit, hb, he, decoderOut_format he, Entry.format, rowOf, rowLw, nextAddress, dRdata,
      State.commit, State.setReg] using hcommit
  · have hstop := edgeDoes_stopped hw (f := .outOfBoundsData _)
      (hfault.trans (if_pos (by simp [dOob, rowOf, rowLw, hbound]))) rfl
    simpa [hbound] using hstop

theorem edgeDoes_sw (hp : c.misaligned = .perform) (hsw : e = .sw) : EdgeDoes c s (cycleOn c w s) := by
  subst hsw
  have hb := bypassesAlu_of_entryOf he
  have halu := edgeAlu_effectiveAddress (s := s) hc he (.inr rfl) rfl
  have hfault := edgeFault_of_edgeAlu_some hc he hin hb halu
  rw [cycleOn_i s hc he rfl]
  simp only [cycleI, aluDispatch, rowOf, rowSw, decoderOut_rs, decoderOut_rt, decoderOut_imm16, if_true,
    memWrite_perform hp]
  by_cases hbound : dataInBounds c (alu .add (s.reg (rsOf w)) (sext32 (immOf w)))
  · have hcommit := edgeDoes_of_no_fault hw (hfault.trans (by simp [dOob, rowOf, rowSw, hbound]))
    rw [halu, edgeRom_of_entryOf hc he] at hcommit
    simpa [hbound, edgeCommit, he, rowOf, rowSw, nextAddress, State.commit] using hcommit
  · have hstop := edgeDoes_stopped hw (f := .outOfBoundsData _)
      (hfault.trans (if_pos (by simp [dOob, rowOf, rowSw, hbound]))) rfl
    simpa [hbound] using hstop

/-- R149 for the blocks: on a known word the edge is the cycle. -/
theorem edgeDoes_cycleOn (hp : c.misaligned = .perform) : EdgeDoes c s (cycleOn c w s) := by
  cases e with
  | nop => exact edgeDoes_nop hc he hin hw rfl
  | exit => exact edgeDoes_exit hc he hin hw rfl
  | sll => exact edgeDoes_sll hc he hin hw rfl
  | jr => exact edgeDoes_jr hc he hin hw rfl
  | srl | sra | add | sub | and | or | nor | slt => exact edgeDoes_operation hc he hin hw rfl
  | j => exact edgeDoes_j hc he hin hw rfl
  | beq => exact edgeDoes_beq hc he hin hw rfl
  | addi | ori => exact edgeDoes_immediate hc he hin hw rfl rfl
  | lw => exact edgeDoes_lw hc he hin hw hp rfl
  | sw => exact edgeDoes_sw hc he hin hw hp rfl

end Known

/-- Settles O37: a fetch out of bounds and an unknown word stop the edge as they stop the cycle; on a known word the edge
does what the cycle does, entry by entry. -/
theorem wiredBlocksRefineTheCycle : Obligations.WiredBlocksRefineTheCycle := by
  intro c hc hp s
  change EdgeDoes c s (cycle c s)
  rw [cycle, fetch]
  by_cases hin : s.pc.toNat < c.imemBytes
  · rw [if_pos hin]
    cases he : entryOf c (s.slot (s.pc.toNat / 4)) with
    | some e => exact edgeDoes_cycleOn hc he hin rfl hp
    | none =>
      have hfault : edgeFault c (s.slot (s.pc.toNat / 4)) s =
          some (.unknownInstruction, s.slot (s.pc.toNat / 4)) := by
        simp [edgeFault, datapathFault, iOob, hin.not_ge, he]
      simp only [cycleOn_unknown s he]
      exact edgeDoes_stopped rfl hfault rfl
  · have hfault : edgeFault c (s.slot (s.pc.toNat / 4)) s = some (.outOfBoundsFetch, s.pc) := by
      simp [edgeFault, datapathFault, iOob, not_lt.mp hin]
    rw [if_neg hin]
    exact edgeDoes_stopped rfl hfault rfl

end Sys2Proof.Machine
end

section
/-!
The catalog's table against the decoder (R97, R99, R100, R103): the obligations DecodeFollowsMatchMaskTable,
UnknownWordsAreExactlyTheRest, ValidityFlagIsUnusedFields, FieldsByPositionAreTheFormats, ConfigMeetsParameterConstraints and
SpecWordsDecode.
-/

namespace Sys2Proof

/-- Settles O1: the values are concrete and every constraint of R5 is decidable. -/
theorem configMeetsParameterConstraints : Obligations.ConfigMeetsParameterConstraints := Machine.config_valid

/-! ## The match / mask table -/

/-- The word of every instruction agrees with its row of the table. -/
theorem encode_and_maskWord (i : Instr) : encode config i &&& i.entry.maskWord = i.entry.matchWord := by
  cases i with
  | nop => exact Laws.EncodeMatchesRow.nop
  | exit => exact Laws.EncodeMatchesRow.exit
  | sll | srl | sra | jr | add | sub | and | or | nor | slt => exact Laws.EncodeMatchesRow.rWord_masked ..
  | j => exact Laws.EncodeMatchesRow.jWord_masked ..
  | beq | addi | ori | lw | sw => exact Laws.EncodeMatchesRow.iWord_masked ..

section Key
variable {w : Word} {e : Entry}

/-- Every row's mask keeps the opcode, so the row's match value shows the entry's. -/
theorem opcodeOf_of_masked (hx : e ≠ .exit) (h : w &&& e.maskWord = e.matchWord) :
    opcodeOf w = keyOpcode config e := by
  have hmask : opcodeOf e.maskWord = BitVec.allOnes 6 := by cases e <;> rfl
  have hkey : opcodeOf e.matchWord = keyOpcode config e := by
    cases e with
    | exit => exact absurd rfl hx
    | _ => rfl
  have hand : opcodeOf (w &&& e.maskWord) = opcodeOf w &&& opcodeOf e.maskWord := BitVec.extractLsb'_and
  rw [← hkey, ← h, hand, hmask, BitVec.and_allOnes]

/-- An R row's mask keeps the funct too. -/
theorem functOf_of_masked {f : Funct} (hf : keyFunct config e = some f) (h : w &&& e.maskWord = e.matchWord) :
    functOf w = f := by
  obtain ⟨hmask, hkey⟩ : functOf e.maskWord = BitVec.allOnes 6 ∧ functOf e.matchWord = f := by
    cases e with
    | sll | srl | sra | jr | add | sub | and | or | nor | slt => exact ⟨rfl, Option.some.inj hf⟩
    | nop | exit | j | beq | addi | ori | lw | sw => cases hf
  have hand : functOf (w &&& e.maskWord) = functOf w &&& functOf e.maskWord := BitVec.extractLsb'_and
  rw [← hkey, ← h, hand, hmask, BitVec.and_allOnes]

end Key

/-- Settles O4: a word that selects an entry is the word of its instruction, which the entry's row matches; a word that a row
matches has the row's key. -/
theorem decodeFollowsMatchMaskTable : Obligations.DecodeFollowsMatchMaskTable := by
  intro w e
  constructor
  · intro he
    have hrow : w &&& e.maskWord = e.matchWord := by
      have := encode_and_maskWord (ofFields e w)
      rwa [encode_ofFields he, entry_ofFields] at this
    obtain hnop | ⟨-, hexit⟩ | ⟨h0, hhalt, hn, hx, -⟩ := entryOf_cases he
    · exact .inl hnop
    · exact .inr (.inl hexit)
    · exact .inr (.inr ⟨h0, hhalt, hn, hx, hrow⟩)
  · rintro (⟨rfl, rfl⟩ | ⟨rfl, rfl⟩ | ⟨h0, -, hn, hx, hrow⟩)
    · exact entryOf_zero config
    · rfl
    · exact entryOf_key Machine.config_valid hn hx h0 (opcodeOf_of_masked hx hrow) fun _ hf => functOf_of_masked hf hrow

/-! ## Unknown words -/

theorem decode_eq_error_iff {c : Config} {w : Word} :
    decode c w = .error (.unknownInstruction w) ↔ entryOf c w = none := by
  cases he : entryOf c w <;> simp [decode, he]

theorem ite_some_eq_none_iff {α : Type} {p : Prop} [Decidable p] {a : α} {x : Option α} :
    (if p then some a else x) = none ↔ ¬ p ∧ x = none := by
  by_cases hp : p <;> simp [hp]

theorem lookupFunct_eq_none_iff {c : Config} {fn : Funct} : lookupFunct c fn = none ↔ fn ∉ c.functs := by
  simp only [lookupFunct, ite_some_eq_none_iff]
  simp [Config.functs]

theorem lookup_eq_none_iff {c : Config} {op : Opcode} {fn : Funct} :
    lookup c op fn = none ↔ (op = c.opRtype ∧ fn ∉ c.functs) ∨ op ∉ c.opcodes := by
  by_cases hr : op = c.opRtype
  · simp [lookup, hr, lookupFunct_eq_none_iff, Config.opcodes]
  · simp only [lookup, if_neg hr, ite_some_eq_none_iff]
    simp [hr, Config.opcodes]

/-- Settles O5: neither whole word, and no key; the zero word has SLL's key, so the list need not name it. -/
theorem unknownWordsAreExactlyTheRest : Obligations.UnknownWordsAreExactlyTheRest := by
  intro w
  change _ ↔ w ≠ config.haltWord ∧
    ((opcodeOf w = config.opRtype ∧ functOf w ∉ config.functs) ∨ opcodeOf w ∉ config.opcodes)
  rw [decode_eq_error_iff, ← lookup_eq_none_iff, entryOf]
  by_cases h0 : w = 0
  · subst h0
    decide
  · rw [if_neg h0, ite_some_eq_none_iff]

/-! ## The validity flag -/

section Validity
variable {c : Config} {w : Word} {e : Entry}

theorem mem_violationsOf {f : FieldName} {n : Nat} :
    (f, n) ∈ violationsOf e w ↔ f ∈ e.unusedFields ∧ n = f.valueIn w ∧ n ≠ 0 := by
  simp only [violationsOf, List.mem_filter, List.mem_map, Prod.mk.injEq, bne_iff_ne]
  constructor
  · rintro ⟨⟨g, hg, rfl, rfl⟩, hne⟩
    exact ⟨hg, rfl, hne⟩
  · rintro ⟨hf, rfl, hne⟩
    exact ⟨⟨f, hf, rfl, rfl⟩, hne⟩

theorem validityOf_eq_unknown_iff : validityOf c w = .unknown ↔ entryOf c w = none := by
  rw [validityOf]
  cases entryOf c w with
  | none => simp
  | some e => by_cases h : (violationsOf e w).isEmpty = true <;> simp [h]

theorem validityOf_eq_partiallyValid_iff (he : entryOf c w = some e) :
    validityOf c w = .partiallyValid ↔ ∃ f ∈ e.unusedFields, f.valueIn w ≠ 0 := by
  rw [← beq_iff_eq, Machine.validityOf_beq_partiallyValid he]
  simp

theorem validityOf_eq_fullyValid_iff (he : entryOf c w = some e) :
    validityOf c w = .fullyValid ↔ ∀ f ∈ e.unusedFields, f.valueIn w = 0 := by
  have hsome : validityOf c w ≠ .unknown := by simp [validityOf_eq_unknown_iff, he]
  have hcases : validityOf c w = .fullyValid ↔ validityOf c w ≠ .partiallyValid := by
    cases h : validityOf c w with
    | unknown => exact absurd h hsome
    | fullyValid | partiallyValid => simp
  rw [hcases, Ne, validityOf_eq_partiallyValid_iff he]
  simp

/-- R99: the decoded instruction reads the flag from the same fields. -/
theorem partiallyValid_ofFields (e : Entry) (w : Word) :
    (ofFields e w).partiallyValid = e.unusedFields.any fun f => f.valueIn w != 0 := by
  cases e with
  | nop | exit | j | beq | addi | ori | lw | sw => rfl
  | add | sub | and | or | nor | slt | sll | srl | sra | jr =>
    simp [ofFields, Instr.partiallyValid, Entry.unusedFields, FieldName.valueIn, Machine.toNat_bne_zero, Bool.or_assoc]

end Validity

/-- Settles O12: every clause reads the unused fields of the one entry that the word selects. -/
theorem validityFlagIsUnusedFields : Obligations.ValidityFlagIsUnusedFields := by
  intro w
  refine ⟨validityOf_eq_unknown_iff, fun e i he hi => ?_⟩
  obtain rfl : ofFields e w = i := Except.ok.inj ((decode_of_entryOf he).symm.trans hi)
  refine ⟨validityOf_eq_fullyValid_iff he, validityOf_eq_partiallyValid_iff he, fun f n => mem_violationsOf, ?_⟩
  rw [partiallyValid_ofFields, ← Machine.validityOf_beq_partiallyValid he, beq_iff_eq]

/-! ## The formats, and the spec's words -/

/-- Settles O9: both cut the word at the same places, one by shifting, one by dividing (R92, R93). -/
theorem fieldsByPositionAreTheFormats : Obligations.FieldsByPositionAreTheFormats := by
  intro w
  have hfield : ∀ start len : Nat, (w.extractLsb' start len).toNat = w.toNat / 2 ^ start % 2 ^ len := fun start len => by
    rw [BitVec.extractLsb'_toNat, Nat.shiftRight_eq_div_pow]
  simp only [decompose_eq_ok_iff, Format.widths, fieldsBelow, opcodeOf, rsOf, rtOf, rdOf, shamtOf, functOf, immOf, targetOf,
    hfield]
  simp

/-- Settles O11: the words are concrete. -/
theorem specWordsDecode : Obligations.SpecWordsDecode := by
  unfold Obligations.SpecWordsDecode
  decide

end Sys2Proof
end

section
/-!
What each instruction does (files 41 to 46), from two shapes that nearly every meaning has: a write-back of one register and a
transfer of `pc`. The obligations AddAndSubWrap to NopAndExitOnlyAdvance.
-/

namespace Sys2Proof.Machine

open Sys2Proof.Claims

section Shapes
variable {i : Instr} {s : State} {row : ControlSignals}

theorem writesRegister_of_exec {rd : RegIndex} {v : Word} (h : exec i s = writeBack row i.partiallyValid rd v s) :
    WritesRegister i s row rd v :=
  ⟨_, h, ⟨reg_setReg_self s rd v, fun _ hq => reg_setReg_ne s v hq⟩, rfl, ⟨fun _ => rfl, fun _ => rfl⟩, rfl, rfl⟩

theorem transfers_of_exec {e : CycleEnd} {next : Word} (h : exec i s = .next (s.commit row e i.partiallyValid next)) :
    Transfers i s row e next :=
  ⟨_, h, fun _ => rfl, rfl, ⟨fun _ => rfl, fun _ => rfl⟩, rfl, rfl⟩

end Shapes

/-! ## Arithmetic and logic -/

theorem add_eq_wrapAdd (a b : Word) : a + b = wrapAdd a.toInt b.toInt := by
  rw [wrapAdd, BitVec.ofInt_add, BitVec.ofInt_toInt, BitVec.ofInt_toInt]

theorem sub_eq_wrapAdd (a b : Word) : a - b = wrapAdd a.toInt (-b.toInt) := by
  rw [wrapAdd, BitVec.ofInt_add, BitVec.ofInt_toInt, BitVec.ofInt_neg, BitVec.ofInt_toInt, BitVec.sub_eq_add_neg]

/-- Settles O18: the exact sum and difference reduce modulo 2^32 to the ALU's. -/
theorem addAndSubWrap : Obligations.AddAndSubWrap := by
  intro s rs rt rd shamt
  rw [← add_eq_wrapAdd, ← sub_eq_wrapAdd]
  exact ⟨writesRegister_of_exec rfl, writesRegister_of_exec rfl⟩

/-- Settles O19: the ALU's operations, read bit by bit. -/
theorem logicIsBitwise : Obligations.LogicIsBitwise := by
  intro s rs rt rd shamt
  refine ⟨⟨_, writesRegister_of_exec rfl, fun k _ => ?_⟩, ⟨_, writesRegister_of_exec rfl, fun k _ => ?_⟩,
    ⟨_, writesRegister_of_exec rfl, fun k hk => ?_⟩⟩
  · exact BitVec.getLsbD_and
  · exact BitVec.getLsbD_or
  · simp [alu, hk]

/-- Settles O20: the ALU compares the signed values itself. -/
theorem sltComparesSigned : Obligations.SltComparesSigned := fun _ _ _ _ _ => writesRegister_of_exec rfl

/-! ## Shifts -/

theorem ushiftRight_eq_ofNat_div (v : Word) (k : Nat) : v >>> k = BitVec.ofNat 32 (v.toNat / 2 ^ k) := by
  apply BitVec.eq_of_toNat_eq
  have := Nat.div_le_self v.toNat (2 ^ k)
  rw [BitVec.toNat_ushiftRight, Nat.shiftRight_eq_div_pow, BitVec.toNat_ofNat, Nat.mod_eq_of_lt (by omega)]

theorem sshiftRight_eq_ofInt_fdiv (v : Word) (k : Nat) :
    v.sshiftRight k = BitVec.ofInt 32 (Int.fdiv v.toInt (2 ^ k)) := by
  have hpos : (0 : Int) ≤ 2 ^ k := Int.le_of_lt (Int.pow_pos (by decide))
  rw [BitVec.sshiftRight, Int.shiftRight_eq_div_pow, Int.fdiv_eq_ediv_of_nonneg _ hpos]
  norm_cast

theorem alu_shiftRightLogical (v : Word) (shamt : BitVec 5) :
    alu .shiftRightLogical v (zext32 shamt) = BitVec.ofNat 32 (v.toNat / 2 ^ shamt.toNat) := by
  rw [alu, zext32_shamt, ushiftRight_eq_ofNat_div]

theorem alu_shiftRightArithmetic (v : Word) (shamt : BitVec 5) :
    alu .shiftRightArithmetic v (zext32 shamt) = BitVec.ofInt 32 (Int.fdiv v.toInt (2 ^ shamt.toNat)) := by
  rw [alu, zext32_shamt, sshiftRight_eq_ofInt_fdiv]

/-- Settles O21: the shift amount reaches the ALU whole, and a right shift is a floor division. -/
theorem rightShiftsDivide : Obligations.RightShiftsDivide := by
  intro s rs rt rd shamt
  rw [← alu_shiftRightLogical, ← alu_shiftRightArithmetic]
  exact ⟨writesRegister_of_exec rfl, writesRegister_of_exec rfl⟩

/-- Settles O22: SLL's meaning is the fault itself, under this hardware's `OP_RTYPE` and `FN_SLL`. -/
theorem sllRaisesUnsupportedOpcode : Obligations.SllRaisesUnsupportedOpcode := fun _ _ _ _ _ => rfl

/-! ## Immediates -/

/-- Settles O23: both add as an effective address is formed (R240), wrapping. -/
theorem immediatesAreAdded : Obligations.ImmediatesAreAdded := by
  intro s rs rt imm
  rw [wrapAdd, ← effectiveAddress_eq]
  exact ⟨writesRegister_of_exec rfl, writesRegister_of_exec rfl⟩

/-! ## Loads and stores -/

theorem dataInBounds_iff {a : Word} : dataInBounds config a ↔ a.toNat + 3 ≤ config.dmemBytes - 1 := by
  change _ + 4 ≤ 1000 ↔ _ + 3 ≤ 1000 - 1
  omega

theorem not_dataInBounds_iff {a : Word} : ¬ dataInBounds config a ↔ config.dmemBytes - 4 < a.toNat := by
  change ¬ _ + 4 ≤ 1000 ↔ 1000 - 4 < _
  omega

/-- Settles O24: the word read in this byte order is the four bytes, the first on top. -/
theorem loadWordReadsBigEndian : Obligations.LoadWordReadsBigEndian := by
  intro s rs rt imm ea hea hin
  obtain rfl : effectiveAddress rs imm s = ea := by rw [hea, wrapAdd, effectiveAddress_eq]
  exact ⟨rfl, writesRegister_of_exec (exec_lw_inBounds (dataInBounds_iff.mpr hin))⟩

section Store
variable {m : Memory} (hm : Memory.wf m = true) (a : Nat) (v : Word)
include hm

theorem sparseGet_writeWord_big :
    sparseGet (writeWord .big m a v) a = v.extractLsb' 24 8 ∧
      sparseGet (writeWord .big m a v) (a + 1) = v.extractLsb' 16 8 ∧
      sparseGet (writeWord .big m a v) (a + 2) = v.extractLsb' 8 8 ∧
      sparseGet (writeWord .big m a v) (a + 3) = v.extractLsb' 0 8 := by
  simp [sparseGet_writeWord hm, wordBytes]

theorem sparseGet_writeWord_outside (o : ByteOrder) {b : Nat} (h : b < a ∨ a + 3 < b) :
    sparseGet (writeWord o m a v) b = sparseGet m b := by
  rw [sparseGet_writeWord hm, if_neg (by omega), if_neg (by omega), if_neg (by omega), if_neg (by omega)]

end Store

/-- Settles O25: the four bytes of a big-endian store, and no byte outside them. -/
theorem storeWordWritesFourBytes : Obligations.StoreWordWritesFourBytes := by
  intro s rs rt imm ea hea hwf hin
  obtain rfl : effectiveAddress rs imm s = ea := by rw [hea, wrapAdd, effectiveAddress_eq]
  obtain ⟨h0, h1, h2, h3⟩ := sparseGet_writeWord_big hwf (effectiveAddress rs imm s).toNat (s.reg rt)
  exact ⟨rfl, _, exec_sw_inBounds (dataInBounds_iff.mpr hin), h0, h1, h2, h3,
    fun a ha => sparseGet_writeWord_outside hwf _ _ _ ha, fun _ => rfl, fun _ => rfl, rfl, rfl, rfl⟩

/-- Settles O26: the bounds check stops both before any register is looked at. -/
theorem outOfBoundsAccessFaults : Obligations.OutOfBoundsAccessFaults := by
  intro s rs rt imm ea hea hout
  obtain rfl : effectiveAddress rs imm s = ea := by rw [hea, wrapAdd, effectiveAddress_eq]
  have hbound := not_dataInBounds_iff.mpr hout
  exact ⟨exec_lw_outOfBounds hbound, exec_sw_outOfBounds hbound⟩

/-! ## Control transfer -/

theorem beq_next_eq (rs rt : RegIndex) (imm : BitVec 16) (s : State) :
    (if branchTaken rs rt s then branchTarget s.pc imm else s.pc + 4) =
      if s.reg rs = s.reg rt then BitVec.ofInt 32 (s.pc.toNat + 4 * imm.toInt) else s.pc + 4 := by
  simp only [branchTaken_iff, branchTarget_eq]

theorem toNat_append_eq_add {n m : Nat} (a : BitVec n) (b : BitVec m) :
    (a ++ b).toNat = a.toNat * 2 ^ m + b.toNat := by
  rw [BitVec.toNat_append, ← Nat.shiftLeft_add_eq_or_of_lt b.isLt, Nat.shiftLeft_eq]

theorem jumpTarget_eq (pc0 : Word) (target : BitVec 26) :
    jumpTarget pc0 target = BitVec.ofNat 32 (4 * target.toNat + (pc0 + 4).toNat / 2 ^ 28 * 2 ^ 28) := by
  rw [jumpTarget_append]
  apply BitVec.eq_of_toNat_eq
  rw [toNat_append_eq_add, toNat_append_eq_add, BitVec.extractLsb'_toNat, Nat.shiftRight_eq_div_pow, BitVec.toNat_ofNat]
  have := (pc0 + 4).isLt
  have := target.isLt
  have : (0 : BitVec 2).toNat = 0 := rfl
  omega

theorem jrTarget_eq (c : Config) (v : Word) : jrTarget c v = BitVec.ofNat 32 (v.toNat * 2 ^ c.jrShift) := by
  apply BitVec.eq_of_toNat_eq
  rw [jrTarget, BitVec.toNat_shiftLeft, Nat.shiftLeft_eq, BitVec.toNat_ofNat]

/-- Settles O27: a zero difference is equality, and the target is a wrapped sum. -/
theorem beqIsRelativeToItself : Obligations.BeqIsRelativeToItself := by
  intro s rs rt imm
  rw [← beq_next_eq]
  exact transfers_of_exec rfl

/-- Settles O28: both targets as numbers. -/
theorem jumpsReachTheirTargets : Obligations.JumpsReachTheirTargets := by
  constructor
  · intro s target
    rw [← jumpTarget_eq]
    exact transfers_of_exec rfl
  · intro s rs rt rd shamt
    rw [← jrTarget_eq]
    exact transfers_of_exec rfl

/-- Settles O29: both meanings are a commit of `pc + 4`. -/
theorem nopAndExitOnlyAdvance : Obligations.NopAndExitOnlyAdvance := fun _ =>
  ⟨transfers_of_exec rfl, transfers_of_exec rfl⟩

end Sys2Proof.Machine
end

section
/-!
Everything a completed instruction can have done, with what the spec's tables say of it (R34, R37, R99): its destination, its
next `pc` and its outcome. The obligations OnlyTheDestinationRegisterChanges, OnlyStoresChangeMemory,
PartiallyValidExecutesAsItsTwin and OutcomeDependsOnSourcesOnly.
-/

namespace Sys2Proof.Machine

open Sys2Proof.Claims

/-- How the cycle of an instruction ends when it completes (R12). -/
def endOf (i : Instr) : CycleEnd := if i.entry = .exit then .halted else .executed

/-- The states an instruction can complete in: one register written, only `pc` set, or one word stored. -/
inductive Completes (i : Instr) (s : State) : State → Prop where
  | writes {rd : RegIndex} (v : Word) (hd : destination i = some rd) :
      Completes i s ((s.setReg rd v).commit (rowOf i.entry) (endOf i) i.partiallyValid (nextPc i s))
  | transfers (hd : destination i = none) :
      Completes i s (s.commit (rowOf i.entry) (endOf i) i.partiallyValid (nextPc i s))
  | stores (a v : Word) (hi : i.entry = .sw) (hd : destination i = none) (hb : dataInBounds config a) :
      Completes i s (({ s with dmem := writeWord config.byteOrder s.dmem a.toNat v } : State).commit
        (rowOf i.entry) (endOf i) i.partiallyValid (nextPc i s))

/-- The faults an instruction can raise: SLL's own, and a data access out of bounds (R301). -/
inductive Faults (i : Instr) (s : State) : Fault → Prop where
  | unsupported {rs rt rd : RegIndex} {shamt : BitVec 5} (hi : i = .sll rs rt rd shamt) :
      Faults i s (.unsupportedOpcode 0 0)
  | outOfBounds {rs rt : RegIndex} {imm : BitVec 16} (hi : i = .lw rs rt imm ∨ i = .sw rs rt imm)
      (hb : ¬ dataInBounds config (effectiveAddress rs imm s)) :
      Faults i s (.outOfBoundsData (effectiveAddress rs imm s))

/-- One case per instruction: `Completes` and `Faults` are all that a meaning can answer. -/
theorem exec_cases (i : Instr) (s : State) :
    (∃ t, exec i s = .next t ∧ Completes i s t) ∨ ∃ f, exec i s = .fault f ∧ Faults i s f := by
  cases i with
  | nop | exit => exact .inl ⟨_, rfl, .transfers rfl⟩
  | sll => exact .inr ⟨_, rfl, .unsupported rfl⟩
  | srl | sra | add | sub | and | or | nor | slt | addi | ori => exact .inl ⟨_, rfl, .writes _ rfl⟩
  | jr rs rt rd shamt =>
    refine .inl ⟨_, rfl, ?_⟩
    rw [jrTarget_eq]
    exact .transfers rfl
  | j target =>
    refine .inl ⟨_, rfl, ?_⟩
    rw [jumpTarget_eq]
    exact .transfers rfl
  | beq rs rt imm =>
    refine .inl ⟨_, rfl, ?_⟩
    rw [beq_next_eq]
    exact .transfers rfl
  | lw rs rt imm =>
    by_cases hb : dataInBounds config (effectiveAddress rs imm s)
    · exact .inl ⟨_, exec_lw_inBounds hb, .writes _ rfl⟩
    · exact .inr ⟨_, exec_lw_outOfBounds hb, .outOfBounds (.inl rfl) hb⟩
  | sw rs rt imm =>
    by_cases hb : dataInBounds config (effectiveAddress rs imm s)
    · exact .inl ⟨_, exec_sw_inBounds hb, .stores _ _ rfl rfl hb⟩
    · exact .inr ⟨_, exec_sw_outOfBounds hb, .outOfBounds (.inr rfl) hb⟩

theorem exec_completes {i : Instr} {s t : State} (h : exec i s = .next t) : Completes i s t := by
  obtain ⟨u, hu, hc⟩ | ⟨f, hf, -⟩ := exec_cases i s
  · cases h.symm.trans hu
    exact hc
  · cases h.symm.trans hf

theorem exec_eq_fault_iff {i : Instr} {s : State} {f : Fault} : exec i s = .fault f ↔ Faults i s f := by
  constructor
  · intro h
    obtain ⟨u, hu, -⟩ | ⟨g, hg, hfault⟩ := exec_cases i s
    · cases h.symm.trans hu
    · cases h.symm.trans hg
      exact hfault
  · intro h
    cases h with
    | unsupported hi => subst hi; rfl
    | outOfBounds hi hb =>
      obtain rfl | rfl := hi
      · exact exec_lw_outOfBounds hb
      · exact exec_sw_outOfBounds hb

theorem exec_ne_refused (i : Instr) (s : State) (r : Refusal) : exec i s ≠ .refused r := by
  intro h
  obtain ⟨t, ht, -⟩ | ⟨f, hf, -⟩ := exec_cases i s
  · cases h.symm.trans ht
  · cases h.symm.trans hf

section Completed
variable {i : Instr} {s t : State} (h : Completes i s t)
include h

theorem Completes.pc : t.pc = nextPc i s := by
  cases h <;> rfl

theorem Completes.out : t.out = ⟨some (endOf i), i.partiallyValid⟩ := by
  cases h <;> rfl

theorem Completes.imem : t.imem = s.imem := by
  cases h <;> rfl

theorem Completes.reg {q : RegIndex} (hq : destination i ≠ some q) : t.reg q = s.reg q := by
  cases h with
  | writes v hd => exact reg_setReg_ne s v fun hqrd => hq (hqrd ▸ hd)
  | transfers | stores => rfl

theorem Completes.dmem (hi : i.entry ≠ .sw) : t.dmem = s.dmem := by
  cases h with
  | writes | transfers => rfl
  | stores _ _ hsw => exact absurd hsw hi

end Completed

/-- Settles O16: a completed instruction writes at most its destination. -/
theorem onlyTheDestinationRegisterChanges : Obligations.OnlyTheDestinationRegisterChanges := fun _ _ _ h _ hq =>
  (exec_completes h).reg hq

theorem imem_of_reaches {s t : State} (h : Reaches s t) : t.imem = s.imem := by
  induction h with
  | refl => rfl
  | tail _ hstep ih =>
    obtain ⟨i, -, hi⟩ := step_next hstep
    exact (exec_completes hi).imem.trans ih

/-- Settles O31: induction over the run; a completed instruction keeps instruction memory, and data memory unless it stores. -/
theorem onlyStoresChangeMemory : Obligations.OnlyStoresChangeMemory :=
  ⟨fun _ _ => imem_of_reaches, fun _ _ _ h => (exec_completes h).dmem⟩

/-! ## The fully valid twin (R104) -/

/-- An answer with the partially-valid port of its state cleared. -/
def clearFlag : Result → Result
  | .next t => .next { t with out := { t.out with partiallyValid := false } }
  | .fault f => .fault f
  | .refused r => .refused r

/-- R104: no meaning reads an unused field but for the flag. -/
theorem exec_clearUnused (i : Instr) (s : State) : exec i.clearUnused s = clearFlag (exec i s) := by
  cases i with
  | nop | exit | j | beq | addi | ori => rfl
  | sll | srl | sra | jr | add | sub | and | or | nor | slt => rfl
  | lw rs rt imm =>
    rw [Instr.clearUnused]
    by_cases hb : dataInBounds config (effectiveAddress rs imm s)
    · rw [exec_lw_inBounds hb]; rfl
    · rw [exec_lw_outOfBounds hb]; rfl
  | sw rs rt imm =>
    rw [Instr.clearUnused]
    by_cases hb : dataInBounds config (effectiveAddress rs imm s)
    · rw [exec_sw_inBounds hb]; rfl
    · rw [exec_sw_outOfBounds hb]; rfl

/-- Settles O13: the twin's answer is the instruction's with the flag cleared. -/
theorem partiallyValidExecutesAsItsTwin : Obligations.PartiallyValidExecutesAsItsTwin := by
  intro i s
  rw [exec_clearUnused]
  exact ⟨fun t h => by rw [h]; rfl, fun f h => by rw [h]; rfl⟩

/-! ## Noninterference (R34) -/

/-- The answer `r'` is `r` up to registers other than `dest`: it faults alike, or has the same `pc`, memories, outputs and
destination value. -/
def AgreesOn (dest : Option RegIndex) (r r' : Result) : Prop :=
  (∀ t, r = .next t → ∃ u, r' = .next u ∧ u.pc = t.pc ∧ u.dmem = t.dmem ∧ u.imem = t.imem ∧ u.ctrl = t.ctrl ∧
    u.out = t.out ∧ ∀ d, dest = some d → u.reg d = t.reg d) ∧
  ∀ f, r = .fault f → r' = .fault f

section Agrees
variable (s : State) (x : Vector Word 32)

theorem agreesOn_writeBack (row : ControlSignals) (pv : Bool) (rd : RegIndex) (v : Word) :
    AgreesOn (some rd) (writeBack row pv rd v s) (writeBack row pv rd v { s with regs := x }) := by
  refine ⟨fun t h => ?_, nofun⟩
  cases h
  refine ⟨_, rfl, rfl, rfl, rfl, rfl, rfl, fun d hd => ?_⟩
  cases hd
  rw [commit_reg, commit_reg, reg_setReg_self, reg_setReg_self]

theorem agreesOn_next (row : ControlSignals) (e : CycleEnd) (pv : Bool) (next : Word) (m : Memory) :
    AgreesOn none (.next (({ s with dmem := m } : State).commit row e pv next))
      (.next (({ s with regs := x, dmem := m } : State).commit row e pv next)) := by
  refine ⟨fun t h => ?_, nofun⟩
  cases h
  exact ⟨_, rfl, rfl, rfl, rfl, rfl, rfl, nofun⟩

theorem agreesOn_fault (dest : Option RegIndex) (f : Fault) : AgreesOn dest (.fault f) (.fault f) :=
  ⟨fun _ h => (nomatch h), fun _ h => h⟩

end Agrees

/-- R34: the meaning of an instruction looks only at its sources. -/
theorem exec_agreesOn (i : Instr) (s : State) (x : Vector Word 32) (hx : ∀ r ∈ sources i, readRegs x r = s.reg r) :
    AgreesOn (destination i) (exec i s) (exec i { s with regs := x }) := by
  have hread : ∀ r ∈ sources i, ({ s with regs := x } : State).reg r = s.reg r := hx
  cases i with
  | nop | exit | j => exact agreesOn_next s x ..
  | sll => exact agreesOn_fault ..
  | add rs rt rd shamt | sub rs rt rd shamt | and rs rt rd shamt | or rs rt rd shamt | nor rs rt rd shamt
  | slt rs rt rd shamt =>
    have hs := hread rs (by simp [sources])
    have ht := hread rt (by simp [sources])
    simp only [exec, execAdd, execSub, execAnd, execOr, execNor, execSlt, aluRegister, hs, ht]
    exact agreesOn_writeBack s x ..
  | srl rs rt rd shamt | sra rs rt rd shamt =>
    have ht := hread rt (by simp [sources])
    simp only [exec, execSrl, execSra, aluShift, ht]
    exact agreesOn_writeBack s x ..
  | addi rs rt imm | ori rs rt imm =>
    have hs := hread rs (by simp [sources])
    simp only [exec, execAddi, execOri, aluImmediate, hs]
    exact agreesOn_writeBack s x ..
  | jr rs rt rd shamt =>
    have hs := hread rs (by simp [sources])
    simp only [exec, execJr, hs]
    exact agreesOn_next s x ..
  | beq rs rt imm =>
    have hs := hread rs (by simp [sources])
    have ht := hread rt (by simp [sources])
    simp only [exec, execBeq, branchTaken, hs, ht]
    exact agreesOn_next s x ..
  | lw rs rt imm =>
    have hea : effectiveAddress rs imm { s with regs := x } = effectiveAddress rs imm s :=
      congrArg (alu .add · (sext32 imm)) (hread rs (by simp [sources]))
    by_cases hb : dataInBounds config (effectiveAddress rs imm s)
    · rw [exec_lw_inBounds hb, exec_lw_inBounds (by rwa [hea]), hea]
      exact agreesOn_writeBack s x ..
    · rw [exec_lw_outOfBounds hb, exec_lw_outOfBounds (by rwa [hea]), hea]
      exact agreesOn_fault ..
  | sw rs rt imm =>
    have hea : effectiveAddress rs imm { s with regs := x } = effectiveAddress rs imm s :=
      congrArg (alu .add · (sext32 imm)) (hread rs (by simp [sources]))
    have ht := hread rt (by simp [sources])
    by_cases hb : dataInBounds config (effectiveAddress rs imm s)
    · rw [exec_sw_inBounds hb, exec_sw_inBounds (by rwa [hea]), hea, ht]
      exact agreesOn_next s x ..
    · rw [exec_sw_outOfBounds hb, exec_sw_outOfBounds (by rwa [hea]), hea]
      exact agreesOn_fault ..

/-- Settles O17: `exec_agreesOn`, for every instruction. -/
theorem outcomeDependsOnSourcesOnly : Obligations.OutcomeDependsOnSourcesOnly := exec_agreesOn

end Sys2Proof.Machine
end

section
/-!
Whole steps (R12, R145, R301 to R304): which steps stop and why, what a stop leaves, and when a cycle halts. The obligations
StepRunsTheDecodedInstruction, FaultsHaveExactlyFourCauses, NoStepIsRefused, FaultingCycleCommitsNothing,
EveryCycleSetsPcByTheTable, HaltIsAnOutcomeNotAState and JrFollowsTheShiftParameter.
-/

namespace Sys2Proof.Machine

open Sys2Proof.Claims

/-- Settles O32: in bounds the fetch answers the slot, and a step is the meaning of what it decodes to. -/
theorem stepRunsTheDecodedInstruction : Obligations.StepRunsTheDecodedInstruction := by
  intro s i hin
  refine ⟨fun h => step_of_fetchDecode (fetchDecode_of_decode hin h), fun hwf hslot => ?_⟩
  exact step_of_fetchDecode (fetchDecode_of_decode hin (hslot ▸ decode_encode config_valid hwf))

/-! ## Faults (R301, R303) -/

/-- Everything fetch and decode can answer, the first failing phase first. -/
theorem fetchDecode_cases (s : State) :
    (config.imemBytes ≤ s.pc.toNat ∧ fetchDecode config s = .error (.fault (.outOfBoundsFetch s.pc))) ∨
    (s.pc.toNat < config.imemBytes ∧ entryOf config (s.slot (s.pc.toNat / 4)) = none ∧
      fetchDecode config s = .error (.fault (.unknownInstruction (s.slot (s.pc.toNat / 4))))) ∨
    (s.pc.toNat < config.imemBytes ∧ ∃ e, entryOf config (s.slot (s.pc.toNat / 4)) = some e ∧
      fetchDecode config s = .ok (ofFields e (s.slot (s.pc.toNat / 4)))) := by
  by_cases hin : s.pc.toNat < config.imemBytes
  · cases he : entryOf config (s.slot (s.pc.toNat / 4)) with
    | none => exact .inr (.inl ⟨hin, rfl, by simp [fetchDecode, fetch, hin, decode_eq_error_iff.mpr he]⟩)
    | some e => exact .inr (.inr ⟨hin, e, rfl, fetchDecode_of_decode hin (decode_of_entryOf he)⟩)
  · exact .inl ⟨not_lt.mp hin, by simp [fetchDecode, fetch, hin]⟩

theorem faults_iff {i : Instr} {s : State} {f : Fault} : Faults i s f ↔
    (∃ rs rt rd shamt, i = .sll rs rt rd shamt ∧ f = .unsupportedOpcode 0 0) ∨
    ∃ rs rt imm, (i = .lw rs rt imm ∨ i = .sw rs rt imm) ∧ ¬ dataInBounds config (effectiveAddress rs imm s) ∧
      f = .outOfBoundsData (effectiveAddress rs imm s) := by
  constructor
  · intro h
    cases h with
    | unsupported hi => exact .inl ⟨_, _, _, _, hi, rfl⟩
    | outOfBounds hi hb => exact .inr ⟨_, _, _, hi, hb, rfl⟩
  · rintro (⟨rs, rt, rd, shamt, hi, rfl⟩ | ⟨rs, rt, imm, hi, hb, rfl⟩)
    · exact .unsupported hi
    · exact .outOfBounds hi hb

theorem step_of_fetchDecode_error {s : State} {e : Stop} (h : fetchDecode config s = .error e) : step s = e.result := by
  rw [step, h]

/-- Settles O33: the three ways out of fetch and decode; past them, only SLL and a data access out of bounds fault. -/
theorem faultsHaveExactlyFourCauses : Obligations.FaultsHaveExactlyFourCauses := by
  intro s f
  simp only [decode_eq_error_iff, ← not_dataInBounds_iff]
  obtain ⟨hout, hfd⟩ | ⟨hin, hunknown, hfd⟩ | ⟨hin, e, he, hfd⟩ := fetchDecode_cases s
  · rw [step_of_fetchDecode_error hfd, hfd]
    simp [Stop.result, hout, hout.not_gt, eq_comm]
  · rw [step_of_fetchDecode_error hfd, hfd]
    simp [Stop.result, hin, hin.not_ge, hunknown, eq_comm]
  · rw [step_of_fetchDecode hfd, hfd, exec_eq_fault_iff, faults_iff]
    simp [hin.not_ge, he]

/-- Settles O34: fetch and decode stop with faults only, and so does every meaning under the policy `perform`. -/
theorem noStepIsRefused : Obligations.NoStepIsRefused := by
  intro s r
  obtain ⟨-, hfd⟩ | ⟨-, -, hfd⟩ | ⟨-, e, -, hfd⟩ := fetchDecode_cases s
  · rw [step_of_fetchDecode_error hfd]; nofun
  · rw [step_of_fetchDecode_error hfd]; nofun
  · rw [step_of_fetchDecode hfd]; exact exec_ne_refused _ s r

/-- Settles O35: the edge does what the cycle does (`wiredBlocksRefineTheCycle`), and the cycle of a faulting step stops. -/
theorem faultingCycleCommitsNothing : Obligations.FaultingCycleCommitsNothing := by
  intro s f h
  rw [wiredBlocksRefineTheCycle config config_valid rfl, cycle_eq_outcomeOf_step, h]
  rfl

/-- Settles O30: `Completes` names the table's `pc`; a faulting edge keeps the whole state. -/
theorem everyCycleSetsPcByTheTable : Obligations.EveryCycleSetsPcByTheTable :=
  ⟨fun _ _ _ h => (exec_completes h).pc, fun s f h => by rw [faultingCycleCommitsNothing s f h]⟩

/-! ## Halt (R282, R314) -/

theorem entryOf_eq_exit_iff {c : Config} (hc : c.Valid) {w : Word} : entryOf c w = some .exit ↔ w = c.haltWord := by
  constructor
  · intro he
    obtain ⟨-, hnop⟩ | ⟨-, hw, -⟩ | ⟨-, -, -, hx, -⟩ := entryOf_cases he
    · cases hnop
    · exact hw
    · exact absurd rfl hx
  · rintro rfl
    exact entryOf_encode hc (i := .exit) rfl

/-- A cycle on a known word halts exactly when the entry is EXIT's. -/
theorem cycleOn_eq_halted_iff {w : Word} {e : Entry} (he : entryOf config w = some e) {s t : State} :
    cycleOn config w s = .halted t ↔ e = .exit ∧ t = s.commit rowZero .halted false (s.pc + 4) := by
  by_cases hx : e = .exit
  · subst hx
    rw [cycleOn_exit s he]
    simp [eq_comm]
  · rw [cycleOn_eq_outcomeOf_exec he]
    suffices outcomeOf (exec (ofFields e w) s) ≠ .halted t by simp [hx, this]
    cases h : exec (ofFields e w) s with
    | fault | refused => nofun
    | next u => simp [outcomeOf, (exec_completes h).out, endOf, hx]

/-- R314: no meaning reads what an earlier cycle left in `ctrl` and in the outcome ports. -/
theorem exec_outputs (i : Instr) (s : State) (o : Outputs) (g : ControlSignals) :
    exec i { s with out := o, ctrl := g } = exec i s := by
  cases i <;> rfl

/-- Settles O39: EXIT's entry is HALT_WORD's alone, no other entry halts, and no phase reads the outputs of an earlier cycle. -/
theorem haltIsAnOutcomeNotAState : Obligations.HaltIsAnOutcomeNotAState := by
  constructor
  · intro s t
    rw [cycle, fetch]
    by_cases hin : s.pc.toNat < config.imemBytes
    · rw [if_pos hin, ← entryOf_eq_exit_iff config_valid]
      cases he : entryOf config (s.slot (s.pc.toNat / 4)) with
      | none => simp [cycleOn_unknown s he]
      | some e => simp [cycleOn_eq_halted_iff he, hin, State.commit]
    · simp [hin]
  · intro s o g
    have hfd : fetchDecode config { s with out := o, ctrl := g } = fetchDecode config s := rfl
    rw [step, step, hfd]
    simp only [exec_outputs]

/-! ## JR for every JR_SHIFT -/

theorem cycleOn_jr_shift {c : Config} (hc : c.Valid) {w : Word} (he : entryOf c w = some .jr) (s : State) :
    cycleOn c w s = .executed (s.commit rowR .executed (rtOf w != 0 || rdOf w != 0 || shamtOf w != 0)
      (s.reg (rsOf w) <<< c.jrShift)) := by
  have hfn : functOf w = c.fnJr := (Option.some.inj (keyFunct_of_entryOf he rfl nofun)).symm
  have hpv : (validityOf c w == .partiallyValid) = (rtOf w != 0 || rdOf w != 0 || shamtOf w != 0) := by
    simp [validityOf_beq_partiallyValid he, Entry.unusedFields, FieldName.valueIn, toNat_bne_zero, Bool.or_assoc]
  rw [cycleOn_r s hc he rfl, hpv]
  simp [cycleR, he, hfn, rowOf, rowR]

/-- Settles O51: no constraint of R5 names JR_SHIFT, so the cycle at JR's word is the same for each of its values. -/
theorem jrFollowsTheShiftParameter : Obligations.JrFollowsTheShiftParameter := by
  intro k s rs rt rd shamt
  have hc : ({ config with jrShift := k } : Config).Valid := config_valid
  have he := entryOf_encode hc (i := .jr rs rt rd shamt) rfl
  have hword : encode config (.jr rs rt rd shamt) = encode { config with jrShift := k } (.jr rs rt rd shamt) := rfl
  rw [hword, cycleOn_jr_shift hc he, encode, rsOf_rWord, rtOf_rWord, rdOf_rWord, shamtOf_rWord]
  rfl

end Sys2Proof.Machine
end

section
/-!
Data memory under loads and stores (20_memory.md): the obligations LoadAfterStoreSeesTheStore to
MisalignedRefusedOnlyByPolicy.
-/

namespace Sys2Proof.Machine

open Sys2Proof.Claims

/-- R72 (b): as data, the earlier of two stores to one address is lost. -/
theorem writeWord_writeWord {m : Memory} (hm : Memory.wf m = true) (o : ByteOrder) (a : Nat) (v v' : Word) :
    writeWord o (writeWord o m a v) a v' = writeWord o m a v' := by
  have hwf := writeWord_wf hm o a v
  refine sparse_ext (writeWord_wf hwf o a v') (writeWord_wf hm o a v') fun b => ?_
  rw [sparseGet_writeWord hwf, sparseGet_writeWord hm, sparseGet_writeWord hm]
  split_ifs <;> rfl

/-- Settles O43: the store keeps the registers, so the load computes the same address, and reads back the word there. -/
theorem loadAfterStoreSeesTheStore : Obligations.LoadAfterStoreSeesTheStore := by
  intro s rs rt rd imm hwf hin
  have hb : dataInBounds config (effectiveAddress rs imm s) := dataInBounds_iff.mpr hin
  refine ⟨_, _, exec_sw_inBounds hb, exec_lw_inBounds hb, ?_, fun q hq => ?_⟩
  · rw [commit_reg, reg_setReg_self]
    exact congrArg (if rd = 0 then 0 else ·) (readWord_writeWord hwf ..)
  · rw [commit_reg, reg_setReg_ne _ _ hq]
    rfl

/-- Settles O44: all three stores compute the same address. -/
theorem laterStoreWins : Obligations.LaterStoreWins := by
  intro s rs rt rt' imm hwf hin
  have hb : dataInBounds config (effectiveAddress rs imm s) := dataInBounds_iff.mpr hin
  exact ⟨_, _, _, exec_sw_inBounds hb, exec_sw_inBounds hb, exec_sw_inBounds hb, writeWord_writeWord hwf ..⟩

/-- R62: big-endian, the word one above a stored one. -/
theorem readWord_succ_writeWord {m : Memory} (hm : Memory.wf m = true) (a : Nat) (v : Word) :
    readWord .big (writeWord .big m a v) (a + 1) = v.extractLsb' 0 24 ++ sparseGet m (a + 4) := by
  have hbytes : v.extractLsb' 16 8 ++ v.extractLsb' 8 8 ++ v.extractLsb' 0 8 = v.extractLsb' 0 24 := by
    ext k hk
    simp
    grind
  have hlast : a + 1 + 3 = a + 4 := rfl
  simp only [readWord, bytesWord, sparseGet_writeWord hm, wordBytes, hlast]
  simp [← hbytes]

/-- Settles O45: both accesses are in bounds, and the second starts one byte above the first. -/
theorem overlappingAccessesAreBigEndian : Obligations.OverlappingAccessesAreBigEndian := by
  intro s a v hwf hin
  have hbound : a.toNat + 4 ≤ 999 := hin
  have hsucc : (a + 1).toNat = a.toNat + 1 := by bv_omega
  have hb : dataInBounds config a := (show _ + 4 ≤ 1000 by omega)
  have hb' : dataInBounds config (a + 1) := (show _ + 4 ≤ 1000 by omega)
  refine ⟨_, (memWrite_perform rfl a v s).trans (if_pos hb), ?_⟩
  rw [memRead_perform rfl, if_pos hb', hsucc]
  exact congrArg Except.ok (readWord_succ_writeWord hwf a.toNat v)

/-- Settles O46: the two laws of a word store, `readWord_writeWord` and `sparseGet_writeWord_outside`, at any parameters. -/
theorem wordAccessRoundTrip : Obligations.WordAccessRoundTrip := by
  intro c s a v hp hwf hb
  refine ⟨_, (memWrite_perform hp a v s).trans (if_pos hb), writeWord_wf hwf .., ?_,
    fun _ hout => sparseGet_writeWord_outside hwf _ _ _ hout⟩
  rw [memRead_perform hp, if_pos hb]
  exact congrArg Except.ok (readWord_writeWord hwf ..)

theorem checkAccess_eq_misaligned_iff {c : Config} {a : Word} :
    checkAccess c a = .error (.refused (.misalignedData a)) ↔ c.misaligned = .refuse ∧ a.toNat % 4 ≠ 0 := by
  rw [checkAccess]
  split
  case isTrue h => simp [h]
  case isFalse h =>
    rw [iff_false_right h]
    split <;> nofun

/-- Settles O47: a read and a write are refused when their one check refuses. -/
theorem misalignedRefusedOnlyByPolicy : Obligations.MisalignedRefusedOnlyByPolicy := by
  intro c a v s
  rw [← checkAccess_eq_misaligned_iff, memRead, memWrite]
  cases checkAccess c a <;> simp

end Sys2Proof.Machine
end

section
/-!
The host and the tables: reset, load and register names (R31, R330 to R337), the control ROM, the ALU dispatch and the two
extensions (R10, R137 to R141). The obligations ResetMeetsTheInvariant, ConstructionState, ResetKeepsTheProgram,
IdleAndResetEdges, HostOperationsKeepTheInvariant, LoadFillsInstructionMemory, RegistersDoNotAlias, ControlRomIsTheTable,
AluDispatchIsTheTable and ExtensionsFillTheUpperBits.
-/

namespace Sys2Proof.Machine

open Sys2Proof.Claims

/-! ## Reset -/

/-- Settles O40: the state is concrete. -/
theorem resetMeetsTheInvariant : Obligations.ResetMeetsTheInvariant := ⟨rfl, rfl, rfl, rfl, rfl, rfl⟩

/-- R46: `REG_RESET` everywhere but in the hardwired register. -/
theorem reg_reset (r : RegIndex) : State.reset.reg r = if r = 0 then 0 else config.regReset := by
  by_cases hr : r = 0
  · subst hr; rfl
  · have h0 : 0 ≠ r.toNat := fun h => hr (BitVec.eq_of_toNat_eq h.symm)
    rw [if_neg hr, State.reg, readRegs_of_ne hr]
    exact (Vector.getElem_set_ne (by decide) r.isLt h0).trans (Vector.getElem_replicate r.isLt)

/-- Settles O52: the memories list nothing, so every byte and slot reads as 0, which is the no-op's word. -/
theorem constructionState : Obligations.ConstructionState :=
  ⟨rfl, fun _ => rfl, fun _ => rfl, rfl, reg_reset, step_of_fetchDecode rfl⟩

/-- Settles O53: a reset state is the one after construction, instruction memory apart. -/
theorem resetKeepsTheProgram : Obligations.ResetKeepsTheProgram := fun _ => ⟨rfl, fun _ => rfl, rfl, reg_reset⟩

theorem coreTick_idle (c : Config) (s : State) : coreTick c CoreIn.idle s = (s, ⟨false, false, none, 0, false⟩) := rfl

/-- R136: `rst` comes first in every block. -/
theorem coreTick_rst {i : CoreIn} (h : i.rst = true) (s : State) :
    coreTick config i s = (hostReset s, ⟨false, false, none, 0, false⟩) := by
  unfold coreTick
  simp [h, registerFileTick, programCounterTick, instrMemoryTick, dataMemoryTick, hostReset, State.reset, rowZero]

/-- Settles O38: an idle edge commits nothing; an edge with `rst` resets whatever else is asserted. -/
theorem idleAndResetEdges : Obligations.IdleAndResetEdges := fun s =>
  ⟨coreTick_idle config s, by rw [coreTick_rst rfl], fun _ h => coreTick_rst h s⟩

/-! ## Load and register writes -/

theorem loadWords_eq_ok_iff {c : Config} {ws : List Word} {s t : State} :
    loadWords c ws s = .ok t ↔ ws.length ≤ c.imemSlots ∧ { s with imem := imemFrom 0 ws, pc := 0 } = t := by
  rw [loadWords]
  split
  case isTrue h => simp [h]
  case isFalse h => simp [h]

theorem inv_hostReset {s : State} (hs : s.Inv config) : (hostReset s).Inv config :=
  ⟨rfl, rfl, hs.imemCanonical, hs.imemBacked, rfl, rfl⟩

theorem inv_loadWords {c : Config} {ws : List Word} {s t : State} (hs : s.Inv c) (h : loadWords c ws s = .ok t) :
    t.Inv c := by
  obtain ⟨hfit, rfl⟩ := loadWords_eq_ok_iff.mp h
  exact ⟨hs.dmemCanonical, hs.dmemBacked, imemFrom_wf ws 0, imemFrom_keysBelow ws 0 _ (by omega), hs.zeroSlot, rfl⟩

theorem inv_setReg {c : Config} {s : State} (hs : s.Inv c) (r : RegIndex) (v : Word) : (s.setReg r v).Inv c :=
  ⟨hs.dmemCanonical, hs.dmemBacked, hs.imemCanonical, hs.imemBacked,
    (writeRegs_zeroSlot s.regs r v).trans hs.zeroSlot, hs.pcAligned⟩

/-- Settles O42: reset and load build canonical memories, and a register write leaves the hardwired slot. -/
theorem hostOperationsKeepTheInvariant : Obligations.HostOperationsKeepTheInvariant := by
  intro s hs
  refine ⟨inv_hostReset hs, fun ws t => inv_loadWords hs, fun name v t h => ?_⟩
  obtain ⟨r, -, rfl⟩ := Option.map_eq_some_iff.mp h
  exact inv_setReg hs r v

/-- Settles O54: 250 slots, and what `imemFrom` puts in each. -/
theorem loadFillsInstructionMemory : Obligations.LoadFillsInstructionMemory := by
  intro ws s
  have hslots : config.imemSlots = 250 := rfl
  refine ⟨fun hfit => ?_, fun hlong => ?_⟩
  · refine ⟨_, loadWords_eq_ok_iff.mpr ⟨hslots ▸ hfit, rfl⟩, rfl, fun k => ?_, imemFrom_wf ws 0, rfl, rfl, rfl⟩
    exact (sparseGet_imemFrom ws 0 k).trans (if_neg (Nat.not_lt_zero k))
  · rw [loadWords, if_neg (by omega)]

/-! ## Register names -/

theorem parseRegister_names : ∀ r : RegIndex, parseRegister ('$' :: (registerNames.getD r.toNat "").toList) = some r ∧
    parseRegister ('$' :: Nat.toDigits 10 r.toNat) = some r := by
  decide

/-- Settles O15: a read after a write, and the finite table of spellings. -/
theorem registersDoNotAlias : Obligations.RegistersDoNotAlias := by
  refine ⟨fun s r q v hr => ⟨?_, fun hq => reg_setReg_ne s v hq⟩, parseRegister_names⟩
  rw [reg_setReg_self, if_neg hr]

/-! ## The tables and the extensions -/

/-- Settles O48: the ROM is the table, row by row, under this hardware's opcode numbers. -/
theorem controlRomIsTheTable : Obligations.ControlRomIsTheTable := ⟨fun _ => rfl, fun _ => rfl⟩

/-- Settles O49: the dispatch is the table under this hardware's numbers. -/
theorem aluDispatchIsTheTable : Obligations.AluDispatchIsTheTable := fun _ => ⟨rfl, rfl, rfl, rfl⟩

/-- Settles O50: each extension bit by bit. -/
theorem extensionsFillTheUpperBits : Obligations.ExtensionsFillTheUpperBits := by
  intro v
  have hlow : ∀ k < 16, k < 32 := fun k hk => by omega
  refine ⟨?_, ?_, fun k hk hk' => ⟨?_, ?_⟩⟩
  · ext k hk
    simp [sext32, BitVec.getElem_signExtend, hk, hlow k hk]
  · ext k hk
    simp [zext32, hk, hlow k hk]
  · rw [sext32, BitVec.getLsbD_signExtend, if_neg hk.not_gt, BitVec.msb_eq_getLsbD_last]
    simp [hk']
  · simp [zext32, BitVec.getLsbD_of_ge v k hk]

end Sys2Proof.Machine
end

section
/-!
Runs (R334, R335) as counted cycles: the obligation RunEndsNormallyByHalt.
-/

namespace Sys2Proof.Machine

open Sys2Proof.Claims

/-! ## One cycle of a run -/

section Cycle
variable (stops : List Bool) {s t : State}

theorem run_of_executed (h : cycle config s = .executed t) : run (false :: stops) s = run stops t := by
  have hstep := stepReturnsWhetherHalted s
  rw [h] at hstep
  rw [run, hstep]

theorem run_of_halted (h : cycle config s = .halted t) : run (false :: stops) s = .halted t := by
  have hstep := stepReturnsWhetherHalted s
  rw [h] at hstep
  rw [run, hstep]

theorem run_of_stopped {e : Stop} (h : cycle config s = .stopped e) : run (false :: stops) s = .failed e s := by
  have hstep := stepReturnsWhetherHalted s
  rw [h] at hstep
  rw [run, hstep]

end Cycle

/-! ## How a run ends -/

/-- With the signal down at every boundary up to then, some cycles executed and the next one halted in `t`. -/
def HaltsIn (stops : List Bool) (s t : State) : Prop :=
  ∃ k u, k < stops.length ∧ (∀ j ≤ k, stops[j]? = some false) ∧ ExecutedFor k s u ∧ cycle config u = .halted t

/-- The signal is first up at a boundary that is reached, in `t`, by executed cycles. -/
def CancelledIn (stops : List Bool) (s t : State) : Prop :=
  ∃ k, stops[k]? = some true ∧ (∀ j < k, stops[j]? = some false) ∧ ExecutedFor k s t

section Boundary
variable {stops : List Bool} {s t : State}

theorem not_haltsIn_of_up : ¬ HaltsIn (true :: stops) s t := by
  rintro ⟨k, u, -, hdown, -⟩
  cases hdown 0 (Nat.zero_le k)

/-- With the signal down at the first boundary, the first cycle halts, or it executes and the rest of the run halts. -/
theorem haltsIn_cons_iff : HaltsIn (false :: stops) s t ↔
    cycle config s = .halted t ∨ ∃ s', cycle config s = .executed s' ∧ HaltsIn stops s' t := by
  constructor
  · rintro ⟨k, u, hk, hdown, hrun, hhalt⟩
    cases hrun with
    | zero => exact .inl hhalt
    | @succ n _ s' _ hc hn =>
      exact .inr ⟨s', hc, n, u, Nat.lt_of_succ_lt_succ hk, fun j hj => hdown (j + 1) (by omega), hn, hhalt⟩
  · rintro (hhalt | ⟨s', hc, k, u, hk, hdown, hrun, hhalt⟩)
    · refine ⟨0, s, by simp, fun j hj => ?_, .zero s, hhalt⟩
      rw [Nat.le_zero.mp hj]
      rfl
    · refine ⟨k + 1, u, Nat.succ_lt_succ hk, fun j hj => ?_, .succ hc hrun, hhalt⟩
      cases j with
      | zero => rfl
      | succ j => exact hdown j (by omega)

theorem cancelledIn_of_up_iff : CancelledIn (true :: stops) s t ↔ s = t := by
  constructor
  · rintro ⟨k, -, hdown, hrun⟩
    cases hrun with
    | zero => rfl
    | succ => cases hdown 0 (Nat.succ_pos _)
  · rintro rfl
    exact ⟨0, rfl, nofun, .zero s⟩

theorem cancelledIn_cons_iff : CancelledIn (false :: stops) s t ↔
    ∃ s', cycle config s = .executed s' ∧ CancelledIn stops s' t := by
  constructor
  · rintro ⟨k, hup, hdown, hrun⟩
    cases hrun with
    | zero => cases hup
    | @succ n _ s' _ hc hn => exact ⟨s', hc, n, hup, fun j hj => hdown (j + 1) (by omega), hn⟩
  · rintro ⟨s', hc, k, hup, hdown, hrun⟩
    refine ⟨k + 1, hup, fun j hj => ?_, .succ hc hrun⟩
    cases j with
    | zero => rfl
    | succ j => exact hdown j (by omega)

end Boundary

theorem run_eq_halted_iff (stops : List Bool) (s t : State) : run stops s = .halted t ↔ HaltsIn stops s t := by
  induction stops generalizing s with
  | nil => exact ⟨nofun, fun ⟨_, _, hk, _⟩ => absurd hk (Nat.not_lt_zero _)⟩
  | cons up stops ih =>
    cases up with
    | true => exact iff_of_false nofun not_haltsIn_of_up
    | false =>
      rw [haltsIn_cons_iff]
      cases h : cycle config s with
      | executed s' => simp [run_of_executed stops h, ih]
      | halted s' => simp [run_of_halted stops h]
      | stopped e => simp [run_of_stopped stops h]

theorem run_eq_cancelled_iff (stops : List Bool) (s t : State) : run stops s = .cancelled t ↔ CancelledIn stops s t := by
  induction stops generalizing s with
  | nil => exact ⟨nofun, fun ⟨_, hup, _⟩ => nomatch hup⟩
  | cons up stops ih =>
    cases up with
    | true => rw [cancelledIn_of_up_iff, run, RunEnd.cancelled.injEq]
    | false =>
      rw [cancelledIn_cons_iff]
      cases h : cycle config s with
      | executed s' => simp [run_of_executed stops h, ih]
      | halted s' => simp [run_of_halted stops h]
      | stopped e => simp [run_of_stopped stops h]

/-- Settles O56: induction over the samples, one cycle of R145 per boundary with the signal down. -/
theorem runEndsNormallyByHalt : Obligations.RunEndsNormallyByHalt := ⟨run_eq_halted_iff, run_eq_cancelled_iff⟩

end Sys2Proof.Machine
end

section
/-!
Numeric literals (R110): digits are read back in every base. The obligation LiteralsAreReadInEveryBase.
-/

namespace Sys2Proof.Machine

/-! ## Digits -/

theorem digitValue_digitChar {d : Nat} (h : d < 16) : digitValue d.digitChar = some d := by
  revert d
  decide

theorem isAlphanum_digitChar {d : Nat} (h : d < 16) : d.digitChar.isAlphanum = true := by
  revert d
  decide

theorem isAlphanum_of_mem_toDigits {b : Nat} (hb : 1 < b) (hb' : b ≤ 16) {n : Nat} {c : Char}
    (hc : c ∈ Nat.toDigits b n) : c.isAlphanum = true := by
  induction n using Nat.base_induction b hb with
  | single m hm =>
    rw [Nat.toDigits_of_lt_base hm, List.mem_singleton] at hc
    exact hc ▸ isAlphanum_digitChar (by omega)
  | digit m k hk hm ih =>
    rw [← Nat.toDigits_append_toDigits hb hm hk, Nat.toDigits_of_lt_base hk, List.mem_append, List.mem_singleton] at hc
    obtain hc | rfl := hc
    · exact ih hc
    · exact isAlphanum_digitChar (by omega)

theorem digitsFrom_append (base acc : Nat) (l m : List Char) :
    digitsFrom base acc (l ++ m) = (digitsFrom base acc l).bind fun v => digitsFrom base v m := by
  induction l generalizing acc with
  | nil => rfl
  | cons c l ih =>
    rw [List.cons_append, digitsFrom, digitsFrom]
    cases digitValue c with
    | none => rfl
    | some d =>
      by_cases hd : d < base
      · simp only [if_pos hd, ih]
      · simp only [if_neg hd]; rfl

theorem digitsFrom_digitChar {base d : Nat} (hb : base ≤ 16) (hd : d < base) (acc : Nat) :
    digitsFrom base acc [d.digitChar] = some (acc * base + d) := by
  simp [digitsFrom, digitValue_digitChar (Nat.lt_of_lt_of_le hd hb), hd]

theorem parseDigits_toDigits {b : Nat} (hb : 1 < b) (hb' : b ≤ 16) (n : Nat) :
    parseDigits b (Nat.toDigits b n) = some n := by
  rw [parseDigits, if_neg Nat.toDigits_ne_nil]
  induction n using Nat.base_induction b hb with
  | single m hm => rw [Nat.toDigits_of_lt_base hm, digitsFrom_digitChar hb' hm, Nat.zero_mul, Nat.zero_add]
  | digit m k hk hm ih =>
    rw [← Nat.toDigits_append_toDigits hb hm hk, digitsFrom_append, ih, Nat.toDigits_of_lt_base hk, Option.bind_some,
      digitsFrom_digitChar hb' hk, Nat.mul_comm]

/-! ## Trimming and signs -/

theorem dropWhile_of_head? {p : Char → Bool} {t : List Char} (h : ∀ c ∈ t.head?, p c = false) : t.dropWhile p = t := by
  cases t with
  | nil => rfl
  | cons c t => rw [List.dropWhile_cons_of_neg]; simp [h c rfl]

theorem trim_of_ends {t : List Char} (hhead : ∀ c ∈ t.head?, isBlank c = false)
    (hlast : ∀ c ∈ t.getLast?, isBlank c = false) : trim t = t := by
  rw [trim, dropWhile_of_head? hhead, dropWhile_of_head? (by rwa [List.head?_reverse]), List.reverse_reverse]

theorem trim_of_no_blank {t : List Char} (h : ∀ c ∈ t, isBlank c = false) : trim t = t :=
  trim_of_ends (fun c hc => h c (List.mem_of_mem_head? hc)) fun c hc => h c (List.mem_of_mem_getLast? hc)

theorem isBlank_of_isAlphanum {c : Char} (h : c.isAlphanum = true) : isBlank c = false := by
  by_contra hblank
  simp only [isBlank, Bool.not_eq_false, Bool.or_eq_true, beq_iff_eq] at hblank
  obtain (rfl | rfl) | rfl := hblank
  all_goals exact absurd h (by decide)

/-- A sign is looked for once, so a text of letters and digits that is read as `n` is read as `-n` after a minus sign. -/
theorem parseLiteral_of_parseMagnitude {t : List Char} {n : Nat} (halnum : ∀ c ∈ t, c.isAlphanum = true)
    (h : parseMagnitude t = some n) :
    parseLiteral t = some (n : Int) ∧ parseLiteral ('-' :: t) = some (-(n : Int)) := by
  have hblank : ∀ c ∈ t, isBlank c = false := fun c hc => isBlank_of_isAlphanum (halnum c hc)
  have hblank' : ∀ c ∈ '-' :: t, isBlank c = false := List.forall_mem_cons.mpr ⟨by decide, hblank⟩
  rw [parseLiteral, parseLiteral, trim_of_no_blank hblank, trim_of_no_blank hblank']
  refine ⟨?_, by simp [h]⟩
  split
  · exact absurd (halnum '-' (by simp)) (by decide)
  · simp [h]

/-! ## Bare digits, and digits after a base letter -/

/-- No decimal digit is a base letter. -/
theorem parseMagnitude_of_digits {t : List Char} (h : ∀ c ∈ t, c.isDigit = true) :
    parseMagnitude t = parseDigits 10 t := by
  unfold parseMagnitude
  split
  case h_1 p rest =>
    have hp : p.isDigit = true := h p (by simp)
    have hne : ∀ q : Char, q.isDigit = false → p ≠ q := fun q hq hpq => by rw [hpq, hq] at hp; cases hp
    simp [hne]
  case h_2 => rfl

theorem literal_decimal (n : Nat) : parseLiteral (Nat.toDigits 10 n) = some (n : Int) ∧
    parseLiteral ('-' :: Nat.toDigits 10 n) = some (-(n : Int)) := by
  refine parseLiteral_of_parseMagnitude (fun c => isAlphanum_of_mem_toDigits (by decide) (by decide)) ?_
  rw [parseMagnitude_of_digits fun c => Nat.isDigit_of_mem_toDigits (by decide) (by decide)]
  exact parseDigits_toDigits (by decide) (by decide) n

/-- A base letter of R110 hands the digits after it to its base. -/
theorem literal_of_base_letter {b : Nat} (hb : 1 < b) (hb' : b ≤ 16) {p : Char} (hp : p.isAlphanum = true)
    (hbase : ∀ rest, parseMagnitude ('0' :: p :: rest) = parseDigits b rest) (n : Nat) :
    parseLiteral ('0' :: p :: Nat.toDigits b n) = some (n : Int) ∧
      parseLiteral ('-' :: '0' :: p :: Nat.toDigits b n) = some (-(n : Int)) := by
  refine parseLiteral_of_parseMagnitude ?_ ((hbase _).trans (parseDigits_toDigits hb hb' n))
  exact List.forall_mem_cons.mpr ⟨by decide, List.forall_mem_cons.mpr
    ⟨hp, fun c => isAlphanum_of_mem_toDigits hb hb'⟩⟩

/-- Settles O58: the bare digits, then each letter with its base. -/
theorem literalsAreReadInEveryBase : Obligations.LiteralsAreReadInEveryBase := by
  intro n
  simp only [List.forall_mem_cons, List.not_mem_nil, false_implies, implies_true, and_true]
  exact ⟨literal_decimal n,
    literal_of_base_letter (by decide) (by decide) (by decide) (fun _ => rfl) n,
    literal_of_base_letter (by decide) (by decide) (by decide) (fun _ => rfl) n,
    literal_of_base_letter (by decide) (by decide) (by decide) (fun _ => rfl) n,
    literal_of_base_letter (by decide) (by decide) (by decide) (fun _ => rfl) n,
    literal_of_base_letter (by decide) (by decide) (by decide) (fun _ => rfl) n,
    literal_of_base_letter (by decide) (by decide) (by decide) (fun _ => rfl) n⟩

end Sys2Proof.Machine
end

section
/-!
Lines of three register arguments (R107 to R109): what a register text is made of, how a line of such texts is cut, and the
obligation AssemblerComposesThreeRegisterForms.
-/

namespace Sys2Proof.Machine

open Sys2Proof.Claims

/-! ## Register texts -/

theorem isAlphanum_of_digitValue {c : Char} {d : Nat} (h : digitValue c = some d) : c.isAlphanum = true := by
  unfold digitValue at h
  simp only [Char.isAlphanum, Char.isAlpha, Char.isUpper, Char.isLower, Char.isDigit, Bool.or_eq_true, Bool.and_eq_true,
    decide_eq_true_eq]
  split_ifs at h with h1 h2 h3
  · exact .inr h1
  · exact .inl (.inr ⟨h2.1, h2.2.trans (by decide)⟩)
  · exact .inl (.inl ⟨h3.1, h3.2.trans (by decide)⟩)

theorem isAlphanum_of_digitsFrom {base acc k : Nat} {t : List Char} (h : digitsFrom base acc t = some k) :
    ∀ c ∈ t, c.isAlphanum = true := by
  induction t generalizing acc with
  | nil => nofun
  | cons c t ih =>
    rw [digitsFrom] at h
    split at h
    case h_1 d hd =>
      split at h
      case isTrue => exact List.forall_mem_cons.mpr ⟨isAlphanum_of_digitValue hd, ih h⟩
      case isFalse => cases h
    case h_2 => cases h

theorem mem_of_nameIndexFrom {k j : Nat} {name : List Char} {names : List String}
    (h : nameIndexFrom k name names = some j) : ∃ n ∈ names, n.toList = name := by
  induction names generalizing k with
  | nil => cases h
  | cons n names ih =>
    rw [nameIndexFrom] at h
    split at h
    case isTrue hn => exact ⟨n, by simp, hn⟩
    case isFalse =>
      obtain ⟨m, hm, hname⟩ := ih h
      exact ⟨m, List.mem_cons_of_mem n hm, hname⟩

theorem isAlphanum_registerNames : ∀ n ∈ registerNames, ∀ c ∈ n.toList, c.isAlphanum = true := by
  have hall : (registerNames.all fun n => n.toList.all Char.isAlphanum) = true := by decide
  simpa only [List.all_eq_true] using hall

/-- R109: a register is `$` and a name or digits. -/
theorem parseRegister_eq_some {t : List Char} {r : RegIndex} (h : parseRegister t = some r) :
    ∃ name, t = '$' :: name ∧ ∀ c ∈ name, c.isAlphanum = true := by
  unfold parseRegister at h
  split at h
  case h_1 name =>
    refine ⟨name, rfl, ?_⟩
    split at h
    case h_1 k hk =>
      obtain ⟨n, hn, rfl⟩ := mem_of_nameIndexFrom hk
      exact isAlphanum_registerNames n hn
    case h_2 =>
      split at h
      case h_1 k hk =>
        unfold parseDigits at hk
        split at hk
        case isTrue => cases hk
        case isFalse => exact isAlphanum_of_digitsFrom hk
      case h_2 => cases h
  case h_2 => cases h

/-- A text without blanks and commas, of legal characters, and not empty: one argument of a line. -/
structure IsArgument (t : List Char) : Prop where
  legal : ∀ c ∈ t, isLegal c = true
  noBlank : ∀ c ∈ t, isBlank c = false
  noComma : ',' ∉ t
  ne_nil : t ≠ []

theorem isArgument_of_parseRegister {t : List Char} {r : RegIndex} (h : parseRegister t = some r) : IsArgument t := by
  obtain ⟨name, rfl, hname⟩ := parseRegister_eq_some h
  refine ⟨List.forall_mem_cons.mpr ⟨by decide, fun c hc => by simp [isLegal, hname c hc]⟩,
    List.forall_mem_cons.mpr ⟨by decide, fun c hc => isBlank_of_isAlphanum (hname c hc)⟩, fun hc => ?_, nofun⟩
  obtain hc | hc := List.mem_cons.mp hc
  · exact absurd hc (by decide)
  · exact absurd (hname _ hc) (by decide)

/-! ## Cutting a line -/

theorem splitAtChar_ne_nil (sep : Char) (t : List Char) : splitAtChar sep t ≠ [] := by
  cases t with
  | nil => nofun
  | cons c t =>
    rw [splitAtChar]
    split
    case h_1 => nofun
    case h_2 => split <;> nofun

theorem splitAtChar_cons_of_ne {sep c : Char} (h : c ≠ sep) {t piece : List Char} {more : List (List Char)}
    (ht : splitAtChar sep t = piece :: more) : splitAtChar sep (c :: t) = (c :: piece) :: more := by
  rw [splitAtChar, ht]
  exact if_neg h

theorem splitAtChar_of_not_mem {sep : Char} {t : List Char} (h : sep ∉ t) : splitAtChar sep t = [t] := by
  induction t with
  | nil => rfl
  | cons c t ih =>
    obtain ⟨hc, ht⟩ := List.ne_and_not_mem_of_not_mem_cons h
    exact splitAtChar_cons_of_ne (Ne.symm hc) (ih ht)

theorem splitAtChar_append {sep : Char} {l : List Char} (h : sep ∉ l) (m : List Char) :
    splitAtChar sep (l ++ sep :: m) = l :: splitAtChar sep m := by
  induction l with
  | nil =>
    rw [List.nil_append, splitAtChar]
    split
    case h_1 hm => exact absurd hm (splitAtChar_ne_nil sep m)
    case h_2 piece more hm => rw [if_pos rfl, hm]
  | cons c l ih =>
    obtain ⟨hc, hl⟩ := List.ne_and_not_mem_of_not_mem_cons h
    exact splitAtChar_cons_of_ne (Ne.symm hc) (ih hl)

theorem trim_cons_of_blank {c : Char} (h : isBlank c = true) (t : List Char) : trim (c :: t) = trim t := by
  rw [trim, trim, List.dropWhile_cons_of_pos h]

/-- The three arguments of a line, separated by commas. -/
def argumentText (a b d : List Char) : List Char := a ++ ',' :: (b ++ ',' :: d)

theorem lineOf_three (e : Entry) (a b d : List Char) :
    lineOf e [a, b, d] = (mnemonicOf e).toList ++ ' ' :: argumentText a b d := by
  simp [lineOf, argumentText, List.intersperse]

section Arguments
variable {a b d : List Char} (ha : IsArgument a) (hb : IsArgument b) (hd : IsArgument d)

include hd in
/-- A text that begins with no blank and ends with an argument. -/
theorem trim_append_argument {l : List Char} (hl : ∀ c ∈ l.head?, isBlank c = false) (hne : l ≠ []) :
    trim (l ++ d) = l ++ d := by
  refine trim_of_ends (fun c hc => ?_) fun c hc => ?_
  · rw [List.head?_append_of_ne_nil _ hne] at hc
    exact hl c hc
  · rw [List.getLast?_append_of_ne_nil _ hd.ne_nil] at hc
    exact hd.noBlank c (List.mem_of_mem_getLast? hc)

include ha hb hd

theorem splitAtChar_argumentText : splitAtChar ',' (argumentText a b d) = [a, b, d] := by
  rw [argumentText, splitAtChar_append ha.noComma, splitAtChar_append hb.noComma, splitAtChar_of_not_mem hd.noComma]

theorem splitArgs_argumentText : splitArgs (' ' :: argumentText a b d) = [a, b, d] := by
  have hne : trim (' ' :: argumentText a b d) ≠ [] := by
    have htext : argumentText a b d = (a ++ ',' :: (b ++ [','])) ++ d := by simp [argumentText]
    rw [trim_cons_of_blank (by decide), htext, trim_append_argument hd _ (by simp)]
    · simp
    · rw [List.head?_append_of_ne_nil _ ha.ne_nil]
      exact fun c hc => ha.noBlank c (List.mem_of_mem_head? hc)
  rw [splitArgs, if_neg hne, splitAtChar_cons_of_ne (by decide) (splitAtChar_argumentText ha hb hd)]
  simp only [List.map_cons, List.map_nil, trim_cons_of_blank (c := ' ') rfl, trim_of_no_blank ha.noBlank,
    trim_of_no_blank hb.noBlank, trim_of_no_blank hd.noBlank]

theorem isLegal_argumentText : ∀ c ∈ argumentText a b d, isLegal c = true := by
  intro c hc
  simp only [argumentText, List.mem_append, List.mem_cons] at hc
  obtain hc | rfl | hc | rfl | hc := hc
  · exact ha.legal c hc
  · decide
  · exact hb.legal c hc
  · decide
  · exact hd.legal c hc

end Arguments

/-! ## Mnemonics -/

theorem isAlphanum_mnemonicOf (e : Entry) : ∀ c ∈ (mnemonicOf e).toList, c.isAlphanum = true := by
  have hall : (mnemonicOf e).toList.all Char.isAlphanum = true := by cases e <;> decide
  exact List.all_eq_true.mp hall

theorem mnemonicOf_ne_nil (e : Entry) : (mnemonicOf e).toList ≠ [] := by
  cases e <;> decide

theorem lookupName_mnemonicOf (e : Entry) : lookupName (mnemonicOf e).toList = some e := by
  cases e <;> decide

/-- The name of a line ends at the first blank or comma. -/
theorem isName_mnemonicOf (e : Entry) : ∀ c ∈ (mnemonicOf e).toList, (!isBlank c && c != ',') = true := by
  intro c hc
  have halnum := isAlphanum_mnemonicOf e c hc
  have hcomma : c ≠ ',' := by rintro rfl; exact absurd halnum (by decide)
  simp [isBlank_of_isAlphanum halnum, hcomma]

/-- R107: a line of a mnemonic and three arguments is built from them. -/
theorem assembleLine_three {c : Config} (e : Entry) {a b d : List Char} (ha : IsArgument a) (hb : IsArgument b)
    (hd : IsArgument d) {i : Instr} (hi : buildInstr e [a, b, d] (lineOf e [a, b, d]) = .ok i) :
    assembleLine c (lineOf e [a, b, d]) = .ok (encode c i) := by
  have htrim : trim (lineOf e [a, b, d]) = lineOf e [a, b, d] := by
    have hline : lineOf e [a, b, d] = ((mnemonicOf e).toList ++ ' ' :: (a ++ ',' :: (b ++ [',']))) ++ d := by
      simp [lineOf_three, argumentText]
    rw [hline]
    refine trim_append_argument hd (fun ch hch => ?_) (by simp)
    rw [List.head?_append_of_ne_nil _ (mnemonicOf_ne_nil e)] at hch
    exact isBlank_of_isAlphanum (isAlphanum_mnemonicOf e ch (List.mem_of_mem_head? hch))
  have hlegal : (lineOf e [a, b, d]).find? (fun ch => !isLegal ch) = none := by
    rw [List.find?_eq_none, lineOf_three]
    intro ch hch
    obtain hch | hch := List.mem_append.mp hch
    · simp [isLegal, isAlphanum_mnemonicOf e ch hch]
    · obtain rfl | hch := List.mem_cons.mp hch
      · decide
      · simp [isLegal_argumentText ha hb hd ch hch]
  have hname : (lineOf e [a, b, d]).takeWhile (fun ch => !isBlank ch && ch != ',') = (mnemonicOf e).toList := by
    rw [lineOf_three, List.takeWhile_append_of_pos (isName_mnemonicOf e)]
    simp [isBlank]
  have hrest : (lineOf e [a, b, d]).dropWhile (fun ch => !isBlank ch && ch != ',') = ' ' :: argumentText a b d := by
    rw [lineOf_three, List.dropWhile_append_of_pos (isName_mnemonicOf e)]
    simp [isBlank]
  simp only [assembleLine, htrim, hlegal, hname, hrest, if_neg (mnemonicOf_ne_nil e), lookupName_mnemonicOf,
    splitArgs_argumentText ha hb hd, hi]

/-! ## The three-register pattern (R108) -/

theorem rInstr_of_pattern {e : Entry} (he : patternOf e = .rdRsRt) (rs rt rd : RegIndex) :
    ∃ i, rInstr e rs rt rd 0 = some i ∧ i.wf = true := by
  cases e with
  | add | sub | and | or | nor | slt => exact ⟨_, rfl, rfl⟩
  | nop | exit | sll | srl | sra | jr | j | beq | addi | ori | lw | sw => cases he

theorem buildInstr_of_pattern {e : Entry} (he : patternOf e = .rdRsRt) {a b d : List Char} {rd rs rt : RegIndex}
    (ha : parseRegister a = some rd) (hb : parseRegister b = some rs) (hd : parseRegister d = some rt)
    {i : Instr} (hi : rInstr e rs rt rd 0 = some i) (line : List Char) : buildInstr e [a, b, d] line = .ok i := by
  simp only [buildInstr, he, argRegister, ha, hb, hd, orMalformed, bind, Except.bind, hi]

/-- Settles O57: the line is cut at its blank and its commas, and the word decodes back (`decode_encode`). -/
theorem assemblerComposesThreeRegisterForms : Obligations.AssemblerComposesThreeRegisterForms := by
  intro e a b d rd rs rt he ha hb hd
  obtain ⟨i, hi, hwf⟩ := rInstr_of_pattern he rs rt rd
  have hline := assembleLine_three (c := config) e (isArgument_of_parseRegister ha) (isArgument_of_parseRegister hb)
    (isArgument_of_parseRegister hd) (buildInstr_of_pattern he ha hb hd hi _)
  exact ⟨i, hi, hline, (decodeMnemonic_of_assembleLine hline).trans (decode_encode config_valid hwf)⟩

end Sys2Proof.Machine
end
